-- ==== Sys2Proof/Word.lean ====
section
/-! DEFINITION. The word types of the block whose width no parameter sets: bytes, timestamps, the request word, the command
word and a response's value. A length, a host address and the ControlValue have the widths `LEN_W`, `HADDR_W` and `CTRL_W` of
the configuration (00_scope R10): each is a natural number, kept below two to that width. -/

namespace Sys2Proof

/-- One byte of the Event Buffer, of host memory or of the display string. -/
abbrev Byte := BitVec 8

/-- A timestamp: `TS_W` = 64 bits (00_scope R10, 20_memory R52). -/
abbrev Timestamp := BitVec 64

/-- The 36-bit request word `OP, CMD` (30_encoding R70). -/
abbrev ReqWord := BitVec 36

/-- The control command word (30_encoding R76). -/
abbrev CmdWord := BitVec 32

end Sys2Proof
end

