-- ==== Sys2Proof/Config.lean ====
section
/-! DEFINITION. The implementation parameters of 00_scope R10, the constraints of R11, and the free values: constants
without a body for what the spec leaves arbitrary (93_implementation_defined I16 to I19). -/

namespace Sys2Proof

/-- `HOST_ENDIAN`: the byte order of the ControlValue in host memory (00_scope R10, 92 D5). -/
inductive Endian where
  | little
  | big
deriving DecidableEq, Repr

/-- `FMT_OVER`: the formatting of a timestamp that needs more than `FMT_DIGITS` digits. The spec describes `minwidth` only
(00_scope R10, 92 D12; log entry 14). -/
inductive FmtOver where
  | minwidth
deriving DecidableEq, Repr

/-- The parameters of 00_scope R10, each with R10's default. The two OPEN ones take the values the spec's test vectors
use: DESIGN CHOICE, unsafe for a claim that rests on them (log entry 3). -/
structure Params where
  /-- `C`: Event Buffer capacity in bytes. -/
  C : Nat := 4096
  /-- `R`: EventRecord size in bytes. -/
  R : Nat := 8
  /-- `MIN_INTERVAL`: debounce minimum interval in ticks. -/
  minInterval : Nat := 20
  /-- `FMT_DIGITS`: decimal digits in a formatted record. -/
  fmtDigits : Nat := 16
  /-- `MSG_MAX`: most bytes a WRITE keeps. -/
  msgMax : Nat := 64
  /-- `CTRL_W`: ControlValue width. -/
  ctrlW : Nat := 32
  /-- `CMD_MAGIC`: command group identifier, OPEN. -/
  cmdMagic : BitVec 8 := 0x6B
  /-- `NR_SET`. -/
  nrSet : BitVec 8 := 0
  /-- `NR_GET`. -/
  nrGet : BitVec 8 := 1
  /-- `NR_EXCHANGE`. -/
  nrExchange : BitVec 8 := 2
  /-- `CMD_MAXNR`: declared maximum command index. -/
  cmdMaxNr : BitVec 8 := 2
  /-- `HADDR_W`: host address width. -/
  haddrW : Nat := 64
  /-- `LEN_W`: length operand width. -/
  lenW : Nat := 64
  /-- `HOST_ENDIAN`. -/
  hostEndian : Endian := .little
  /-- `T0`: tick counter value at power-on, OPEN. -/
  t0 : Timestamp := 0
  /-- `FMT_OVER`. -/
  fmtOver : FmtOver := .minwidth
deriving DecidableEq, Repr

/-- The default parameters (00_scope R10). -/
def Params.default : Params := {}

/-- `N`: the records the buffer holds, derived (00_scope R10). -/
def Params.N (p : Params) : Nat := p.C / p.R

/-- `TS_W`: the timestamp width, derived (00_scope R10). -/
def Params.tsW (p : Params) : Nat := 8 * p.R

/-- The bytes of a ControlValue of `CTRL_W` bits: 4 with the default 32 (20_memory R59; log entry 12). -/
def Params.ctrlLen (p : Params) : Nat := (p.ctrlW + 7) / 8

/-- The constraints of 00_scope R11. A configuration that breaks one is refused, as R11 says. -/
abbrev Params.Ok (p : Params) : Prop :=
  p.R = 8 ∧ p.C % p.R = 0 ∧ 2 ≤ p.N ∧ p.minInterval < 2 ^ p.tsW

/-- FREE VALUE (log entry 7): the byte at an offset of a buffer that INIT allocated with this draw number and that no CAPTURE
has written since (10_state R26, 93 I16). -/
opaque Config.unwrittenBufByte : Nat → Nat → Byte

/-- FREE VALUE (log entry 8): byte `i` of the range of a copy to the host that faulted, at this draw number
(20_memory R58, 93 I19). -/
opaque Config.faultedCopyByte : Nat → Nat → Byte

/-- FREE VALUE (log entry 6): `dbl_last` after INIT, at this draw number (10_state R27, 93 I17). -/
opaque Config.unsetDblLast : Nat → Timestamp

/-- FREE VALUE (log entry 5): `rd_len` where the spec leaves it unspecified, at this draw number, of which `LEN_W` bits count
(10_state R33, 93 I18). -/
opaque Config.idleRdLen : Nat → Nat

/-- FREE VALUE (log entry 5): `rd_addr` where the spec leaves it unspecified, at this draw number, of which `HADDR_W` bits
count (10_state R33, 93 I18). -/
opaque Config.idleRdAddr : Nat → Nat

/-- FREE VALUE (log entry 22): a response's VALUE for a count that no 64-bit number is (30_encoding R74). -/
opaque Config.wideCount : Nat → BitVec 64

end Sys2Proof
end

