-- ==== Sys2Proof/Syntax.lean ====
section
/-! DEFINITION. A request as the host presents it (30_encoding R70) and the operations it can name, one constructor for each
row of the opcode table (30_encoding R71, R85). -/

namespace Sys2Proof

/-- A request: the 36-bit word and the two operand fields that travel beside it, of which the decoder reads `LEN_W` and
`HADDR_W` bits (30_encoding R70, R81). -/
structure Request where
  word : ReqWord
  len : Nat
  addr : Nat
deriving DecidableEq, Repr

/-- The operations of the opcode table, with the operands R73 gives them. -/
inductive Instr where
  /-- EDGE (42_capture R120). -/
  | edge
  /-- TICK of `k` ticks (42_capture R122). -/
  | tick (k : Nat)
  /-- READ of up to `n` bytes to `dst` (43_reader R141). -/
  | read (n : Nat) (dst : Nat)
  /-- CANCEL (43_reader R150). -/
  | cancel
  /-- WRITE of `n` bytes from `src` (45_message R180). -/
  | write (n : Nat) (src : Nat)
  /-- CTRL.SET with the input at `arg` (44_control R163). -/
  | ctrlSet (arg : Nat)
  /-- CTRL.GET with the output at `arg` (44_control R164). -/
  | ctrlGet (arg : Nat)
  /-- CTRL.EXCHANGE with the input and the output at `arg` (44_control R166). -/
  | ctrlExchange (arg : Nat)
  /-- CTRL with any other command word (44_control R161). -/
  | ctrlInvalid (cmd : CmdWord) (arg : Nat)
  /-- INIT (46_lifecycle R190). -/
  | init
  /-- TEARDOWN (46_lifecycle R195). -/
  | teardown
  /-- A reserved operation select, `0x8` to `0xF` (30_encoding R80). -/
  | reserved (op : BitVec 4)
deriving DecidableEq, Repr

end Sys2Proof
end

