-- ==== Sys2Proof/Machine/State.lean ====
section
/-! DEFINITION. The state of the block (10_state R23 to R41), as plain data, its value at power-on, and the reasons a step
of the model can stop. -/

namespace Sys2Proof.Machine

/-- `life` (10_state R34). -/
inductive Life where
  | off
  | ready
deriving DecidableEq, Repr

/-- `rd_state` (10_state R33): `wait` is membership in the WaitSet. -/
inductive RdState where
  | idle
  | wait
deriving DecidableEq, Repr

/-- The status of a response (60_exceptions R200). -/
inductive Status where
  | ok
  | invalidCommand
  | badAddress
  | interrupted
  | resourceUnavailable
deriving DecidableEq, Repr

/-- Which kind of request a response answers (30_encoding R75). -/
inductive ReqKind where
  | read
  | cancel
  | write
  | ctrl
  | init
  | teardown
deriving DecidableEq, Repr

/-- A response (30_encoding R74), with the kind of request it answers. -/
structure Response where
  answers : ReqKind
  status : Status
  value : BitVec 64
deriving DecidableEq, Repr

/-- The host's answers at one step: the draws of 20_memory R56 to R58 and of 46_lifecycle R191 (log entry 2). No step asks
for one of them twice. -/
structure Draws where
  /-- `HostAcc(_, _, ToBlock)`. -/
  accToBlock : Bool
  /-- `HostAcc(_, _, ToHost)`. -/
  accToHost : Bool
  /-- Whether `HostRead` succeeds. -/
  readOk : Bool
  /-- Whether `HostWrite` succeeds. -/
  writeOk : Bool
  /-- `okB`: buffer allocation. -/
  okB : Bool
  /-- `okP`: pin acquisition. -/
  okP : Bool
  /-- `okI`: interrupt binding. -/
  okI : Bool
  /-- `okD`: device-node registration. -/
  okD : Bool
deriving DecidableEq, Repr

/-- The autonomous steps (00_scope R17). -/
inductive AutoStep where
  | capture
  | complete
deriving DecidableEq, Repr

/-- One choice of who moves next (10_state R22): a request presented to the block, an autonomous step of the block, or the
host's change of one byte of its own memory (20_memory R55). -/
inductive MoveKind where
  | request (r : Request)
  | auto (a : AutoStep)
  | hostStore (addr : Nat) (b : Byte)
deriving DecidableEq, Repr

/-- A move with the host's answers for it (log entries 1 and 2). -/
structure Move where
  what : MoveKind
  draws : Draws
deriving DecidableEq, Repr

/-- The state. From `life` to `hmem`: the tuple of 10_state R23 and its environment. From `cfg` on: the model's own fields
(INVENTORY.md, State). -/
structure State where
  life : Life
  /-- The bytes of the Event Buffer that a CAPTURE has written since INIT, by offset (10_state R26; log entry 7). -/
  buf : List Host.Cell
  head : Nat
  tail : Nat
  dblLast : Timestamp
  dblValid : Bool
  irqPending : Bool
  rdState : RdState
  /-- `LEN_W` bits (10_state R33). -/
  rdLen : Nat
  /-- `HADDR_W` bits (10_state R33). -/
  rdAddr : Nat
  /-- `CTRL_W` bits (10_state R29). -/
  ctrlValue : Nat
  msg : List Byte
  msgLen : Nat
  ticks : Timestamp
  refused : Bool
  /-- Host memory: the bytes that are not 0x00, by address (20_memory R55; log entry 9). -/
  hmem : List Host.Cell
  /-- The parameters of 00_scope R10; no step writes them (log entry 3). -/
  cfg : Params
  /-- The moves still to come (log entry 1). -/
  moves : List Move
  /-- The host's answers at the present step (log entry 2). -/
  draws : Draws
  /-- The responses given so far, oldest first (log entry 15). -/
  responses : List Response
  /-- The number of the next free value (log entry 17). -/
  freeCtr : Nat
  /-- The draw number of the present buffer's unwritten bytes (log entry 7). -/
  bufGen : Nat
deriving DecidableEq, Repr

/-- Why the machine stops with a fault. -/
inductive Fault where
  /-- A BufRead or BufWrite outside the requirements of 20_memory R51. Raised by READ, COMPLETE and CAPTURE, and by them
  only in states that break the index invariant R103, which no run reaches. SAFE: the spec names this fault. -/
  | bufBounds
deriving DecidableEq, Repr

/-- Why the model gives a step no meaning. A request the spec calls refused is not among them: it has an effect
(00_scope R15, 10_state R36). -/
inductive Refusal where
  /-- An instruction without a meaning yet, by its mnemonic. Raised by no arm of exec. SAFE. -/
  | notModelled (mnemonic : String)
  /-- `moves` names an autonomous step whose enabling condition (10_state R22) does not hold: no run of the block.
  Raised by CAPTURE's and COMPLETE's steps. SAFE (log entry 11). -/
  | notEnabled (a : AutoStep)
  /-- The configuration breaks 00_scope R11. Raised by step. SAFE: the spec asks for it. -/
  | badConfiguration
deriving DecidableEq, Repr

/-- A step's outcome. -/
abbrev Result := Host.Outcome State Fault Refusal

/-- All the host's answers favourable (95_test_vectors, section 3; log entry 17). -/
def Draws.allow : Draws := ⟨true, true, true, true, true, true, true, true⟩

/-- The power-on state under the parameters `p` (10_state R41, 70_reset R230). An element that holds no value there is 0, or
empty: DESIGN CHOICE, log entries 4 and 5. -/
def State.powerOn (p : Params) : State where
  life := .off
  buf := []
  head := 0
  tail := 0
  dblLast := 0
  dblValid := false
  irqPending := false
  rdState := .idle
  rdLen := 0
  rdAddr := 0
  ctrlValue := 0
  msg := List.replicate p.msgMax 0
  msgLen := 0
  ticks := p.t0
  refused := false
  hmem := []
  cfg := p
  moves := []
  draws := Draws.allow
  responses := []
  freeCtr := 0
  bufGen := 0

/-- The machine right after reset: power-on with the default parameters (70_reset R230). -/
def State.reset : State := State.powerOn Params.default

end Sys2Proof.Machine
end

