-- ==== Sys2Proof/Machine/Ops.lean ====
section
/-! DEFINITION. The named operations over the state: memory cells, host memory, the Event Buffer's storage and index
arithmetic, and the two things a request can end in, a response or a refusal. An error is a status on a response: the block
has no exception entry and no return from one (60_exceptions R207, R208). -/

namespace Sys2Proof.Machine

/-! ### Cells: a list of (address, byte) with strictly rising addresses -/

/-- The listed byte at an address. -/
def cellGet : List Host.Cell → Nat → Option Byte
  | [], _ => none
  | c :: m, a => if c.1 = a then some c.2 else cellGet m a

/-- List a byte at an address. -/
def cellPut : List Host.Cell → Nat → Byte → List Host.Cell
  | [], a, b => [(a, b)]
  | c :: m, a, b =>
    if a < c.1 then (a, b) :: c :: m
    else if a = c.1 then (a, b) :: m
    else c :: cellPut m a b

/-- List no byte at an address. -/
def cellErase : List Host.Cell → Nat → List Host.Cell
  | [], _ => []
  | c :: m, a => if c.1 = a then m else c :: cellErase m a

/-- The addresses are strictly rising. -/
abbrev Memory.rising (m : List Host.Cell) : Prop := m.Pairwise (fun c d => c.1 < d.1)

/-! ### Host memory (20_memory R55) -/

/-- What an address that is not listed reads as: DESIGN CHOICE, unsafe (log entry 9). -/
def hmemUnlisted : Byte := 0

/-- The canonical form of host memory: rising addresses of `HADDR_W` bits, and no byte that an unlisted address reads as. -/
abbrev Memory.wf (p : Params) (m : List Host.Cell) : Prop :=
  Memory.rising m ∧ ∀ c ∈ m, c.1 < 2 ^ p.haddrW ∧ c.2 ≠ hmemUnlisted

/-- An address in a copy: modulo `2^HADDR_W` (20_memory R55). -/
def hostAddr (p : Params) (a : Nat) : Nat := a % 2 ^ p.haddrW

/-- `hmem[a]`. -/
def hmemByte (p : Params) (m : List Host.Cell) (a : Nat) : Byte := (cellGet m (hostAddr p a)).getD hmemUnlisted

/-- `hmem[a] <- b`, keeping the canonical form. -/
def hmemPut (p : Params) (m : List Host.Cell) (a : Nat) (b : Byte) : List Host.Cell :=
  if b = hmemUnlisted then cellErase m (hostAddr p a) else cellPut m (hostAddr p a) b

/-- `hmem[a+i] <- bytes[i]` for every `i` (20_memory R55, R58). Of two bytes of a copy longer than `2^HADDR_W` that come to
the same address the later one stands: DESIGN CHOICE, unsafe for such a copy (log entry 23). -/
def hmemStore (p : Params) (m : List Host.Cell) (a : Nat) : List Byte → List Host.Cell
  | [] => m
  | b :: bs => hmemStore p (hmemPut p m a b) (a + 1) bs

/-- The bytes `hmem[a+i]` for `i < n` (20_memory R55, R57). -/
def hmemLoad (p : Params) (m : List Host.Cell) (a : Nat) : Nat → List Byte
  | 0 => []
  | n + 1 => hmemByte p m a :: hmemLoad p m (a + 1) n

/-! ### Byte order -/

/-- The `n` low bytes of `v`, least significant first: byte `i` is `v[8i+7:8i]` (20_memory R51, R52, R59). -/
def leBytes : Nat → Nat → List Byte
  | 0, _ => []
  | n + 1, v => BitVec.ofNat 8 v :: leBytes n (v / 256)

/-- The number whose bytes, least significant first, these are (30_encoding R79, 43_reader R145). -/
def leNat : List Byte → Nat
  | [] => 0
  | b :: bs => b.toNat + 256 * leNat bs

/-! ### The Event Buffer (40_event_buffer, 20_memory R51, R52) -/

/-- `advance(index, delta)` (40_event_buffer R100): past the capacity it is 0, not the remainder. -/
def advance (p : Params) (index delta : Nat) : Nat := if p.C ≤ index + delta then 0 else index + delta

/-- `prev(h)`: the offset of the record behind `h` (40_event_buffer R105). -/
def prev (p : Params) (h : Nat) : Nat := if h = 0 then p.C - p.R else h - p.R

/-- `available(h, t)` (40_event_buffer R106). -/
def available (p : Params) (h t : Nat) : Nat := if t ≤ h then h - t else p.C - t

/-- `buf[off]`: a byte no CAPTURE has written since INIT is a free value (10_state R26; log entry 7). -/
def bufByte (s : State) (off : Nat) : Byte := (cellGet s.buf off).getD (Config.unwrittenBufByte s.bufGen off)

/-- What BufRead and BufWrite require of their operands (20_memory R51). -/
abbrev bufAccessOk (p : Params) (off n : Nat) : Prop := off % p.R = 0 ∧ n = p.R ∧ off + n ≤ p.C

/-- `BufRead(off, n)` (20_memory R51); none where its requirements fail. -/
def bufRead (off n : Nat) (s : State) : Option (List Byte) :=
  if bufAccessOk s.cfg off n then some ((List.range n).map fun i => bufByte s (off + i)) else none

/-- `buf[off+i] <- bytes[i]` for every `i`. -/
def bufPut (m : List Host.Cell) (off : Nat) : List Byte → List Host.Cell
  | [] => m
  | b :: bs => bufPut (cellPut m off b) (off + 1) bs

/-- `BufWrite(off, n, v)` (20_memory R51); none where its requirements fail. -/
def bufWrite (off n : Nat) (v : Timestamp) (s : State) : Option State :=
  if bufAccessOk s.cfg off n then some { s with buf := bufPut s.buf off (leBytes n v.toNat) } else none

/-- The timestamp a record's bytes hold (20_memory R52, 43_reader R145). -/
def recordValue (bytes : List Byte) : Timestamp := BitVec.ofNat 64 (leNat bytes)

/-! ### Responses and refusals -/

/-- The numeric code of a status (60_exceptions R200). -/
def statusCode : Status → BitVec 3
  | .ok => 0
  | .invalidCommand => 1
  | .badAddress => 2
  | .interrupted => 3
  | .resourceUnavailable => 4

/-- The response word `STATUS[2:0], VALUE[63:0]` (30_encoding R74). -/
def responseWord (r : Response) : BitVec 67 := statusCode r.status ++ r.value

/-- A count as a response's 64-bit VALUE (30_encoding R74); a count that no 64-bit number is gives a free value (log
entry 22). -/
def countValue (n : Nat) : BitVec 64 := if n < 2 ^ 64 then BitVec.ofNat 64 n else Config.wideCount n

/-- `respond(status, value)` for a request of kind `k` (00_scope R13, 30_encoding R75). -/
def respond (k : ReqKind) (st : Status) (v : BitVec 64) (s : State) : State :=
  { s with responses := s.responses ++ [⟨k, st, v⟩] }

/-- A refused request (00_scope R15, 10_state R36): no response, and the sticky mark is set (log entry 10). -/
def refuse (s : State) : State := { s with refused := true }

end Sys2Proof.Machine
end

