-- ==== Sys2Proof/Machine/Flags.lean ====
section
/-! DEFINITION. The status bits of 10_state R39: the debounce bit with the filter that reads it (41_debounce), the edge latch
(42_capture R120, R124) and the reader's state (43_reader R141, R145, R150). The block has no condition codes. -/

namespace Sys2Proof.Machine

/-- The debounce test of `admit(now)`: the difference is modulo `2^64` (41_debounce R110). -/
def admits (now : Timestamp) (s : State) : Bool :=
  !s.dblValid || decide (s.cfg.minInterval ≤ (now - s.dblLast).toNat)

/-- What `admit(now)` writes when it returns true (41_debounce R110). -/
def acceptEvent (now : Timestamp) (s : State) : State := { s with dblLast := now, dblValid := true }

/-- `admit(now)` (41_debounce R110): a rejection writes nothing. -/
def admitEvent (now : Timestamp) (s : State) : Bool × State :=
  if admits now s = true then (true, acceptEvent now s) else (false, s)

/-- `irq_pending <- 1` (42_capture R120). -/
def latchEdge (s : State) : State := { s with irqPending := true }

/-- `irq_pending <- 0` (42_capture R124). -/
def clearEdge (s : State) : State := { s with irqPending := false }

/-- `wake()` (43_reader R147): it writes no state; COMPLETE's enabling condition carries its effect. -/
def wake (s : State) : State := s

/-- The reader joins the WaitSet with its operands (43_reader R141). -/
def joinWaitSet (n : Nat) (dst : Nat) (s : State) : State :=
  { s with rdState := .wait, rdLen := n, rdAddr := dst }

/-- `rd_len` and `rd_addr` become unspecified (10_state R33, R41; log entry 5). -/
def dropReadOperands (s : State) : State :=
  { s with
    rdLen := Config.idleRdLen s.freeCtr % 2 ^ s.cfg.lenW
    rdAddr := Config.idleRdAddr s.freeCtr % 2 ^ s.cfg.haddrW
    freeCtr := s.freeCtr + 1 }

/-- `rd_state <- R_IDLE` (43_reader R145, R150): a reader that leaves the WaitSet leaves its operands unspecified. -/
def endRead (s : State) : State :=
  match s.rdState with
  | .idle => s
  | .wait => dropReadOperands { s with rdState := .idle }

end Sys2Proof.Machine
end

