-- ==== Sys2Proof/Machine/Capture.lean ====
section
/-! DEFINITION. The Capture Handler's autonomous step CAPTURE (42_capture R124 to R130). It has no encoding (30_encoding
R82). -/

namespace Sys2Proof.Machine

/-- CAPTURE's enabling condition (10_state R22, 42_capture R124). -/
abbrev captureEnabled (s : State) : Prop := s.life = .ready ∧ s.irqPending = true

/-- Steps 2 to 4 of CAPTURE for an admitted event (42_capture R124): the record, then the head, then the wake. -/
def captureRecord (now : Timestamp) (s : State) : Result :=
  match bufWrite s.head s.cfg.R now s with
  | none => .fault .bufBounds
  | some s' => .next (wake { s' with head := advance s'.cfg s'.head s'.cfg.R })

/-- CAPTURE (42_capture R124): the latch is cleared, and a rejected event has no further effect (R126). -/
def captureStep (s : State) : Result :=
  if captureEnabled s then
    match admitEvent s.ticks (clearEdge s) with
    | (false, s') => .next s'
    | (true, s') => captureRecord s.ticks s'
  else .refused (.notEnabled .capture)

end Sys2Proof.Machine
end

