-- ==== Sys2Proof/Decode.lean ====
section
/-! DEFINITION. The request word's fields, the control command words, the decoder, which gives every request exactly one
operation, and the encoder (30_encoding R70 to R85). -/

namespace Sys2Proof

/-- `OP`, bits 35..32 of the request word (30_encoding R70). -/
def Request.op (r : Request) : BitVec 4 := r.word.extractLsb' 32 4

/-- `CMD`, bits 31..0 of the request word (30_encoding R70). -/
def Request.cmd (r : Request) : CmdWord := r.word.extractLsb' 0 32

/-- The request word of an operation select and a command word (30_encoding R70). -/
def reqWord (op : BitVec 4) (cmd : CmdWord) : ReqWord := op ++ cmd

/-- `NR`, bits 7..0 of the command word (30_encoding R76). -/
def cmdNr (c : CmdWord) : BitVec 8 := c.extractLsb' 0 8

/-- `TYPE`, bits 15..8 of the command word (30_encoding R76). -/
def cmdType (c : CmdWord) : BitVec 8 := c.extractLsb' 8 8

/-- `SIZE`, bits 29..16 of the command word (30_encoding R76). -/
def cmdSize (c : CmdWord) : BitVec 14 := c.extractLsb' 16 14

/-- `DIR`, bits 31..30 of the command word (30_encoding R76). -/
def cmdDir (c : CmdWord) : BitVec 2 := c.extractLsb' 30 2

/-- The command word with these four fields (30_encoding R76). -/
def cmdWord (dir : BitVec 2) (size : BitVec 14) (type nr : BitVec 8) : CmdWord := dir ++ size ++ type ++ nr

/-- `DIR` of SET: caller to block (30_encoding R76, R77). -/
def dirToBlock : BitVec 2 := 0b01

/-- `DIR` of GET: block to caller (30_encoding R76, R77). -/
def dirToHost : BitVec 2 := 0b10

/-- `DIR` of EXCHANGE: both (30_encoding R76, R77). -/
def dirBoth : BitVec 2 := 0b11

/-- `SIZE` of the three commands: the size of a ControlValue in bytes, 4 with the default `CTRL_W` (30_encoding R76, R77;
log entry 12). -/
def ctrlSize (p : Params) : BitVec 14 := BitVec.ofNat 14 p.ctrlLen

/-- `CMD_SET` (30_encoding R77). -/
def cmdSet (p : Params) : CmdWord := cmdWord dirToBlock (ctrlSize p) p.cmdMagic p.nrSet

/-- `CMD_GET` (30_encoding R77). -/
def cmdGet (p : Params) : CmdWord := cmdWord dirToHost (ctrlSize p) p.cmdMagic p.nrGet

/-- `CMD_EXCHANGE` (30_encoding R77). -/
def cmdExchange (p : Params) : CmdWord := cmdWord dirBoth (ctrlSize p) p.cmdMagic p.nrExchange

/-- What a command word can decode to (30_encoding R78). -/
inductive Command where
  | set
  | get
  | exchange
  | invalid
deriving DecidableEq, Repr

/-- `decodeCmd` (30_encoding R78): the group identifier, then the index, then the three defined words. -/
def decodeCmd (p : Params) (c : CmdWord) : Command :=
  if cmdType c ≠ p.cmdMagic then .invalid
  else if p.cmdMaxNr < cmdNr c then .invalid
  else if c = cmdSet p then .set
  else if c = cmdGet p then .get
  else if c = cmdExchange p then .exchange
  else .invalid

/-- A CTRL request's operation (30_encoding R78, R85). -/
def decodeCtrl (p : Params) (c : CmdWord) (arg : Nat) : Instr :=
  match decodeCmd p c with
  | .set => .ctrlSet arg
  | .get => .ctrlGet arg
  | .exchange => .ctrlExchange arg
  | .invalid => .ctrlInvalid c arg

/-- `LEN`: `LEN_W` bits (30_encoding R70). -/
def lenField (p : Params) (r : Request) : Nat := r.len % 2 ^ p.lenW

/-- `ADDR`: `HADDR_W` bits (30_encoding R70). -/
def addrField (p : Params) (r : Request) : Nat := r.addr % 2 ^ p.haddrW

/-- The decoder (30_encoding R71 to R73, R80, R85): total, and a reserved `OP` is rejected by the name `reserved`. -/
def decode (p : Params) (r : Request) : Instr :=
  if r.op = 0x0#4 then .edge
  else if r.op = 0x1#4 then .tick (lenField p r)
  else if r.op = 0x2#4 then .read (lenField p r) (addrField p r)
  else if r.op = 0x3#4 then .cancel
  else if r.op = 0x4#4 then .write (lenField p r) (addrField p r)
  else if r.op = 0x5#4 then decodeCtrl p r.cmd (addrField p r)
  else if r.op = 0x6#4 then .init
  else if r.op = 0x7#4 then .teardown
  else .reserved r.op

/-- The encoder (30_encoding R71, R73, R77): an ignored field is written as 0. -/
def encode (p : Params) : Instr → Request
  | .edge => ⟨reqWord 0x0 0, 0, 0⟩
  | .tick k => ⟨reqWord 0x1 0, k, 0⟩
  | .read n dst => ⟨reqWord 0x2 0, n, dst⟩
  | .cancel => ⟨reqWord 0x3 0, 0, 0⟩
  | .write n src => ⟨reqWord 0x4 0, n, src⟩
  | .ctrlSet arg => ⟨reqWord 0x5 (cmdSet p), 0, arg⟩
  | .ctrlGet arg => ⟨reqWord 0x5 (cmdGet p), 0, arg⟩
  | .ctrlExchange arg => ⟨reqWord 0x5 (cmdExchange p), 0, arg⟩
  | .ctrlInvalid c arg => ⟨reqWord 0x5 c, 0, arg⟩
  | .init => ⟨reqWord 0x6 0, 0, 0⟩
  | .teardown => ⟨reqWord 0x7 0, 0, 0⟩
  | .reserved op => ⟨reqWord op 0, 0, 0⟩

/-- The operation select of each operation (30_encoding R71). -/
def opSelect : Instr → BitVec 4
  | .edge => 0x0
  | .tick _ => 0x1
  | .read _ _ => 0x2
  | .cancel => 0x3
  | .write _ _ => 0x4
  | .ctrlSet _ => 0x5
  | .ctrlGet _ => 0x5
  | .ctrlExchange _ => 0x5
  | .ctrlInvalid _ _ => 0x5
  | .init => 0x6
  | .teardown => 0x7
  | .reserved op => op

/-- The mnemonic of each operation in spec/opcode_table.json. -/
def mnemonic : Instr → String
  | .edge => "EDGE"
  | .tick _ => "TICK"
  | .read _ _ => "READ"
  | .cancel => "CANCEL"
  | .write _ _ => "WRITE"
  | .ctrlSet _ => "CTRL.SET"
  | .ctrlGet _ => "CTRL.GET"
  | .ctrlExchange _ => "CTRL.EXCHANGE"
  | .ctrlInvalid _ _ => "CTRL.INVALID"
  | .init => "INIT"
  | .teardown => "TEARDOWN"
  | .reserved _ => "RESERVED"

/-- A row of the opcode map: `w` matches when `w &&& mask = match` (30_encoding R85). -/
structure OpcodeRow where
  name : String
  pattern : ReqWord
  mask : ReqWord
deriving DecidableEq, Repr

/-- The opcode map of 30_encoding R85, in the order a decoder tests it, with `CMD_MAGIC = 0x6B`. -/
def opcodeMap : List OpcodeRow :=
  [⟨"EDGE", 0x000000000, 0xF00000000⟩,
   ⟨"TICK", 0x100000000, 0xF00000000⟩,
   ⟨"READ", 0x200000000, 0xF00000000⟩,
   ⟨"CANCEL", 0x300000000, 0xF00000000⟩,
   ⟨"WRITE", 0x400000000, 0xF00000000⟩,
   ⟨"CTRL.SET", 0x540046B00, 0xFFFFFFFFF⟩,
   ⟨"CTRL.GET", 0x580046B01, 0xFFFFFFFFF⟩,
   ⟨"CTRL.EXCHANGE", 0x5C0046B02, 0xFFFFFFFFF⟩,
   ⟨"CTRL.INVALID", 0x500000000, 0xF00000000⟩,
   ⟨"INIT", 0x600000000, 0xF00000000⟩,
   ⟨"TEARDOWN", 0x700000000, 0xF00000000⟩,
   ⟨"RESERVED", 0x800000000, 0x800000000⟩]

/-- The first row of the opcode map that a request word matches (30_encoding R85). -/
def firstRow (w : ReqWord) : Option String :=
  (opcodeMap.find? fun r => w &&& r.mask == r.pattern).map (·.name)

/-- The request whose word has the bits of `w`, numbered as spec/opcode_table.json numbers them, with operand fields of
zeros: `LEN` and `ADDR` are not in the word (30_encoding R70; log entry 16). -/
def tableRequest (nbits w : Nat) : Request := ⟨BitVec.ofNat 36 (w % 2 ^ nbits), 0, 0⟩

/-- The operation the decoder reads from a request word with the bits of `w`; none where they are no 36-bit word. -/
def decodeTableWord (nbits w : Nat) : Option Instr :=
  if w % 2 ^ nbits < 2 ^ 36 then some (decode Params.default (tableRequest nbits w)) else none

end Sys2Proof
end

