-- ==== Sys2Proof/Machine/Operands.lean ====
section
/-! DEFINITION. The operand forms: the host's accessibility answer and its copies (20_memory R56 to R58), the ControlValue in
host memory (20_memory R59), and the decimal line of a timestamp (43_reader R143). -/

namespace Sys2Proof.Machine

/-- The direction of an accessibility check (00_scope R13). -/
inductive Dir where
  | toBlock
  | toHost
deriving DecidableEq, Repr

/-- `HostAcc(addr, n, dir)`: the host's draw, and true of zero bytes (20_memory R56). -/
def hostAcc (_addr : Nat) (n : Nat) (dir : Dir) (s : State) : Bool :=
  n == 0 || match dir with
    | .toBlock => s.draws.accToBlock
    | .toHost => s.draws.accToHost

/-- `HostRead(addr, n)`: the bytes, or none for a fault; zero bytes succeed (20_memory R57). -/
def hostRead (addr : Nat) (n : Nat) (s : State) : Option (List Byte) :=
  if n = 0 ∨ s.draws.readOk = true then some (hmemLoad s.cfg s.hmem addr n) else none

/-- The arbitrary bytes a faulting copy of `n` bytes leaves in its range (20_memory R58; log entry 8). -/
def faultedBytes (n : Nat) (s : State) : List Byte := (List.range n).map (Config.faultedCopyByte s.freeCtr)

/-- Whether `HostWrite` of these bytes succeeds: the host's draw, and zero bytes succeed (20_memory R58). -/
def hostWriteOk (bytes : List Byte) (s : State) : Bool := bytes.length == 0 || s.draws.writeOk

/-- The state after `HostWrite(addr, n, bytes)` succeeded (20_memory R58). -/
def hostWritten (addr : Nat) (bytes : List Byte) (s : State) : State :=
  { s with hmem := hmemStore s.cfg s.hmem addr bytes }

/-- The state after `HostWrite(addr, n, bytes)` faulted (20_memory R58). -/
def hostFaulted (addr : Nat) (bytes : List Byte) (s : State) : State :=
  { s with hmem := hmemStore s.cfg s.hmem addr (faultedBytes bytes.length s), freeCtr := s.freeCtr + 1 }

/-- The bytes of a ControlValue in `HOST_ENDIAN` order, 4 with the default `CTRL_W` (20_memory R59; log entry 12, and for
`big` log entry 13). -/
def ctrlBytes (p : Params) (v : Nat) : List Byte :=
  match p.hostEndian with
  | .little => leBytes p.ctrlLen v
  | .big => (leBytes p.ctrlLen v).reverse

/-- The ControlValue that bytes in `HOST_ENDIAN` order hold, `CTRL_W` bits of them (30_encoding R79; log entry 12, and for
`big` log entry 13). -/
def ctrlOfBytes (p : Params) (bytes : List Byte) : Nat :=
  match p.hostEndian with
  | .little => leNat bytes % 2 ^ p.ctrlW
  | .big => leNat bytes.reverse % 2 ^ p.ctrlW

/-- The ASCII character of a decimal digit (43_reader R143). -/
def asciiDigit (d : Nat) : Byte := BitVec.ofNat 8 (0x30 + d)

/-- The decimal digits of `v` before `acc`, most significant first, at most as many as the first argument says. -/
def decimalAux : Nat → Nat → List Byte → List Byte
  | 0, _, acc => acc
  | fuel + 1, v, acc =>
    if v / 10 = 0 then asciiDigit (v % 10) :: acc else decimalAux fuel (v / 10) (asciiDigit (v % 10) :: acc)

/-- The decimal digits of a timestamp in ASCII, most significant first, no sign: a 64-bit number has at most 20
(43_reader R143). -/
def decimal (v : Timestamp) : List Byte := decimalAux 20 v.toNat []

/-- `fmt(v)` (43_reader R143): zero-padded to `FMT_DIGITS`, never truncated under `minwidth`, then a newline. -/
def fmt (p : Params) (v : Timestamp) : List Byte :=
  match p.fmtOver with
  | .minwidth => List.replicate (p.fmtDigits - (decimal v).length) 0x30#8 ++ decimal v ++ [0x0A#8]

end Sys2Proof.Machine
end

