-- ==== Sys2Proof/Machine/Control.lean ====
section
/-! DEFINITION. The Control Channel: CTRL.SET, CTRL.GET, CTRL.EXCHANGE and an invalid command (44_control R160 to R170). -/

namespace Sys2Proof.Machine

/-- The error response of a CTRL request: nothing is committed (44_control R168). -/
def ctrlError (st : Status) (s : State) : Result := .next (respond .ctrl st 0 s)

/-- The refusal while OFF (44_control R160) and the accessibility checks of the direction `d`, input before output
(44_control R161, R162), in front of a command's copies and commit. -/
def ctrlChecked (d : BitVec 2) (arg : Nat) (command : State → Result) (s : State) : Result :=
  if s.life = .off then .next (refuse s)
  else if d.getLsbD 0 = true ∧ hostAcc arg s.cfg.ctrlLen .toBlock s = false then ctrlError .badAddress s
  else if d.getLsbD 1 = true ∧ hostAcc arg s.cfg.ctrlLen .toHost s = false then ctrlError .badAddress s
  else command s

/-- The copy-out of a ControlValue, with what the command does when it succeeded (44_control R164, R166). -/
def ctrlCopyOut (arg : Nat) (v : Nat) (commit : State → State) (s : State) : Result :=
  if hostWriteOk (ctrlBytes s.cfg v) s = true then
    .next (respond .ctrl .ok 0 (commit (hostWritten arg (ctrlBytes s.cfg v) s)))
  else ctrlError .badAddress (hostFaulted arg (ctrlBytes s.cfg v) s)

/-- CTRL.SET (44_control R163). -/
def execCtrlSet (arg : Nat) (s : State) : Result :=
  ctrlChecked dirToBlock arg (fun s =>
    match hostRead arg s.cfg.ctrlLen s with
    | none => ctrlError .badAddress s
    | some bytes => .next (respond .ctrl .ok 0 { s with ctrlValue := ctrlOfBytes s.cfg bytes })) s

/-- CTRL.GET (44_control R164). -/
def execCtrlGet (arg : Nat) (s : State) : Result :=
  ctrlChecked dirToHost arg (fun s => ctrlCopyOut arg s.ctrlValue id s) s

/-- CTRL.EXCHANGE (44_control R166): the new value is twice the input, modulo `2^CTRL_W`, and the old one is not read. -/
def execCtrlExchange (arg : Nat) (s : State) : Result :=
  ctrlChecked dirBoth arg (fun s =>
    match hostRead arg s.cfg.ctrlLen s with
    | none => ctrlError .badAddress s
    | some bytes =>
      let nv := 2 * ctrlOfBytes s.cfg bytes % 2 ^ s.cfg.ctrlW
      ctrlCopyOut arg nv (fun s => { s with ctrlValue := nv }) s) s

/-- A CTRL request whose command word is none of the three (44_control R161): no state change, no host access. -/
def execCtrlInvalid (_cmd : CmdWord) (_arg : Nat) (s : State) : Result :=
  if s.life = .off then .next (refuse s) else ctrlError .invalidCommand s

end Sys2Proof.Machine
end

