-- ==== Sys2Proof/Machine/Environment.lean ====
section
/-! DEFINITION. The environment's inputs: EDGE and TICK (42_capture R120 to R123). Neither gets a response. -/

namespace Sys2Proof.Machine

/-- EDGE (42_capture R120): latched while READY, lost while OFF. -/
def execEdge (s : State) : Result :=
  match s.life with
  | .ready => .next (latchEdge s)
  | .off => .next s

/-- TICK of `k` ticks, modulo `2^64` (42_capture R122). -/
def execTick (k : Nat) (s : State) : Result := .next { s with ticks := s.ticks + BitVec.ofNat 64 k }

end Sys2Proof.Machine
end

