-- ==== Sys2Proof/Machine/Lifecycle.lean ====
section
/-! DEFINITION. The lifecycle: INIT and TEARDOWN (46_lifecycle R190 to R196). -/

namespace Sys2Proof.Machine

/-- The state a successful INIT writes (46_lifecycle R192): `buf` and `dbl_last` are free values, and so are `rd_len` and
`rd_addr` (10_state R41; log entries 5, 6 and 7). -/
def initialise (s : State) : State :=
  dropReadOperands
    { s with
      life := .ready
      buf := []
      bufGen := s.freeCtr
      head := 0
      tail := 0
      dblLast := Config.unsetDblLast s.freeCtr
      dblValid := false
      irqPending := false
      rdState := .idle
      ctrlValue := 0
      msg := List.replicate s.cfg.msgMax 0
      msgLen := 0 }

/-- The elements that hold a value only while READY return to "none" (10_state R41; log entry 4). -/
def forget (s : State) : State :=
  { s with
    buf := []
    bufGen := 0
    head := 0
    tail := 0
    dblLast := 0
    dblValid := false
    ctrlValue := 0
    msg := List.replicate s.cfg.msgMax 0
    msgLen := 0 }

/-- INIT's failure response: nothing was kept (46_lifecycle R190, R193). -/
def initFailed (s : State) : Result := .next (respond .init .resourceUnavailable 0 s)

/-- INIT (46_lifecycle R190): buffer, pin, interrupt, device node, and the first false answer ends it. -/
def execInit (s : State) : Result :=
  if s.life = .ready then .next (refuse s)
  else if s.draws.okB = false then initFailed s
  else if s.draws.okP = false then initFailed s
  else if s.draws.okI = false then initFailed s
  else if s.draws.okD = false then initFailed s
  else .next (respond .init .ok 0 (initialise s))

/-- TEARDOWN (46_lifecycle R195): refused while a READ waits; a pending edge is discarded. -/
def execTeardown (s : State) : Result :=
  if s.life = .off ∨ s.rdState = .wait then .next (refuse s)
  else .next (respond .teardown .ok 0 (dropReadOperands (forget { clearEdge s with life := .off })))

end Sys2Proof.Machine
end

