-- ==== Sys2Proof/Machine/Message.lean ====
section
/-! DEFINITION. The message write path: WRITE (45_message R180, R181). -/

namespace Sys2Proof.Machine

/-- The display string a WRITE of these bytes leaves: the bytes, then zeros up to `MSG_MAX` (45_message R180). -/
def displayString (p : Params) (bytes : List Byte) : List Byte :=
  bytes ++ List.replicate (p.msgMax - bytes.length) 0#8

/-- WRITE (45_message R180): `min(n, MSG_MAX)` bytes are kept, and the response is `n`. -/
def execWrite (n : Nat) (src : Nat) (s : State) : Result :=
  if s.life = .off then .next (refuse s)
  else
    match hostRead src (min n s.cfg.msgMax) s with
    | none => .next (respond .write .badAddress 0 s)
    | some bytes =>
      .next (respond .write .ok (countValue n) { s with msg := displayString s.cfg bytes, msgLen := bytes.length })

end Sys2Proof.Machine
end

