-- ==== Sys2Proof/Machine/Reader.lean ====
section
/-! DEFINITION. The Blocking Reader: READ, CANCEL and the autonomous step COMPLETE (43_reader R140 to R157). -/

namespace Sys2Proof.Machine

/-- The first `k = min(n, L(v))` bytes of a timestamp's line (43_reader R144). -/
def deliveredBytes (p : Params) (n : Nat) (v : Timestamp) : List Byte := (fmt p v).take n

/-- `tail <- advance(tail, available(h, tail))` with `h` the published head (43_reader R145). -/
def drain (s : State) : State :=
  { s with tail := advance s.cfg s.tail (available s.cfg s.head s.tail) }

/-- The copy of `deliver` and what follows it, for the bytes to deliver (43_reader R145). -/
def deliverBytes (bytes : List Byte) (dst : Nat) (s : State) : State :=
  if hostWriteOk bytes s = true then
    respond .read .ok (countValue bytes.length) (endRead (drain (hostWritten dst bytes s)))
  else respond .read .badAddress 0 (endRead (hostFaulted dst bytes s))

/-- `deliver(n, dst)` (43_reader R145), shared by READ and COMPLETE: the record behind the head as it stands. -/
def deliver (n : Nat) (dst : Nat) (s : State) : Result :=
  match bufRead (prev s.cfg s.head) s.cfg.R s with
  | none => .fault .bufBounds
  | some bytes => .next (deliverBytes (deliveredBytes s.cfg n (recordValue bytes)) dst s)

/-- READ (43_reader R140, R141): the emptiness test and the joining of the WaitSet are one step (R142). -/
def execRead (n : Nat) (dst : Nat) (s : State) : Result :=
  if s.life = .off ∨ s.rdState = .wait then .next (refuse s)
  else if s.head = s.tail then .next (joinWaitSet n dst s)
  else deliver n dst s

/-- CANCEL (43_reader R150): a waiting READ is answered first, then the CANCEL itself. -/
def execCancel (s : State) : Result :=
  if s.life = .off then .next (refuse s)
  else
    match s.rdState with
    | .wait => .next (respond .cancel .ok 0 (respond .read .interrupted 0 (endRead s)))
    | .idle => .next (respond .cancel .ok 0 s)

/-- COMPLETE's enabling condition (10_state R22, 43_reader R146). -/
abbrev completeEnabled (s : State) : Prop := s.life = .ready ∧ s.rdState = .wait ∧ s.head ≠ s.tail

/-- COMPLETE (43_reader R146), with the stored operands of the outstanding READ. -/
def completeStep (s : State) : Result :=
  if completeEnabled s then deliver s.rdLen s.rdAddr s else .refused (.notEnabled .complete)

end Sys2Proof.Machine
end

