-- ==== Sys2Proof/Machine/Reserved.lean ====
section
/-! DEFINITION. A request with a reserved operation select (30_encoding R80). -/

namespace Sys2Proof.Machine

/-- A reserved `OP` is refused: no response, and the mark is set (30_encoding R80, 00_scope R15). -/
def execReserved (_op : BitVec 4) (s : State) : Result := .next (refuse s)

end Sys2Proof.Machine
end

