-- ==== Sys2Proof/Machine/Dispatch.lean ====
section
/-! DEFINITION. What each operation of the opcode table does: one arm for each, a call of its meaning. -/

namespace Sys2Proof.Machine

def exec (i : Instr) (s : State) : Host.Outcome State Fault Refusal :=
  match i with
  | .edge => Sys2Proof.Machine.execEdge s
  | .tick k => Sys2Proof.Machine.execTick k s
  | .read n dst => Sys2Proof.Machine.execRead n dst s
  | .cancel => Sys2Proof.Machine.execCancel s
  | .write n src => Sys2Proof.Machine.execWrite n src s
  | .ctrlSet arg => Sys2Proof.Machine.execCtrlSet arg s
  | .ctrlGet arg => Sys2Proof.Machine.execCtrlGet arg s
  | .ctrlExchange arg => Sys2Proof.Machine.execCtrlExchange arg s
  | .ctrlInvalid cmd arg => Sys2Proof.Machine.execCtrlInvalid cmd arg s
  | .init => Sys2Proof.Machine.execInit s
  | .teardown => Sys2Proof.Machine.execTeardown s
  | .reserved op => Sys2Proof.Machine.execReserved op s

end Sys2Proof.Machine
end

