-- ==== Sys2Proof/Machine/Schedule.lean ====
section
/-! DEFINITION. Taking the next move: presenting a request to the decoder, an autonomous step, or the host's own store
(10_state R22, 20_memory R55; log entries 1, 2 and 20). -/

namespace Sys2Proof.Machine

/-- The state in which a move is carried out: the move is taken off the list and its draws are the host's answers. -/
def takeMove (m : Move) (rest : List Move) (s : State) : State := { s with moves := rest, draws := m.draws }

/-- An autonomous step (00_scope R17). -/
def autoStep (a : AutoStep) (s : State) : Result :=
  match a with
  | .capture => captureStep s
  | .complete => completeStep s

/-- The host changes one byte of its own memory (20_memory R55, 70_reset R233). -/
def hostStoreStep (addr : Nat) (b : Byte) (s : State) : Result :=
  .next { s with hmem := hmemPut s.cfg s.hmem addr b }

/-- Carry out a move. -/
def runMove (w : MoveKind) (s : State) : Result :=
  match w with
  | .request r => exec (decode s.cfg r) s
  | .auto a => autoStep a s
  | .hostStore addr b => hostStoreStep addr b s

/-- One step of the machine: the next move, and no change where there is none. A configuration that breaks R11 is refused
(00_scope R11). -/
def nextStep (s : State) : Result :=
  if s.cfg.Ok then
    match s.moves with
    | [] => .next s
    | m :: rest => runMove m.what (takeMove m rest s)
  else .refused .badConfiguration

/-- `s` with the request of a table word as its next move, the host's answers being those `s` holds (log entry 16). -/
def presentTableWord (s : State) (nbits w : Nat) : State :=
  { s with moves := ⟨.request (tableRequest nbits w), s.draws⟩ :: s.moves }

end Sys2Proof.Machine
end

