-- ==== Sys2Proof/Machine/Step.lean ====
section
/-! DEFINITION. The step of the machine, and the placing of a request as its next move. -/

namespace Sys2Proof.Machine

/-- One step (00_scope R14, 10_state R22). -/
def step (s : State) : Host.Outcome State Fault Refusal := nextStep s

/-- `s` with the request of a table word presented next (log entry 16). -/
def State.withFetchWord (s : State) (nbits w : Nat) : State := presentTableWord s nbits w

end Sys2Proof.Machine
end

