-- ==== Sys2Proof/Safety.lean ====
section
/-! DEFINITION. What a good state is: the canonical forms of the two memories and the invariants the spec states or derives
(10_state R24 to R34, 40_event_buffer R103, R104, 46_lifecycle R192, R195). -/

namespace Sys2Proof.Machine

/-- The 8 bytes of the record at `off` are listed and hold the timestamp `v` (20_memory R52). -/
def recordIs (s : State) (off : Nat) (v : Timestamp) : Prop :=
  ∀ i < s.cfg.R, cellGet s.buf (off + i) = (leBytes s.cfg.R v.toNat)[i]?

/-- The invariant of the machine. It holds at power-on under every configuration R11 allows. -/
structure Inv (s : State) : Prop where
  /-- The configuration meets 00_scope R11. -/
  cfgOk : s.cfg.Ok
  /-- Host memory is in its canonical form. -/
  hmemWf : Memory.wf s.cfg s.hmem
  /-- The buffer's listed offsets are strictly rising. -/
  bufRising : Memory.rising s.buf
  /-- The buffer lists offsets below `C` only (10_state R26). -/
  bufBound : ∀ c ∈ s.buf, c.1 < s.cfg.C
  /-- `msg` has `MSG_MAX` bytes (10_state R30). -/
  msgLength : s.msg.length = s.cfg.msgMax
  /-- `0 <= msg_len <= MSG_MAX` (10_state R30). -/
  msgLenLe : s.msgLen ≤ s.cfg.msgMax
  /-- The bytes of `msg` past `msg_len` are 0 (45_message R180). -/
  msgRest : ∀ b ∈ s.msg.drop s.msgLen, b = 0
  /-- `ctrl_value` has `CTRL_W` bits (10_state R29). -/
  ctrlBits : s.ctrlValue < 2 ^ s.cfg.ctrlW
  /-- `rd_len` has `LEN_W` bits (10_state R33). -/
  rdLenBits : s.rdLen < 2 ^ s.cfg.lenW
  /-- `rd_addr` has `HADDR_W` bits (10_state R33). -/
  rdAddrBits : s.rdAddr < 2 ^ s.cfg.haddrW
  /-- `head` is an offset below `C` (40_event_buffer R103). -/
  headLt : s.life = .ready → s.head < s.cfg.C
  /-- `tail` is an offset below `C` (40_event_buffer R103). -/
  tailLt : s.life = .ready → s.tail < s.cfg.C
  /-- `head` is a multiple of `R` (40_event_buffer R103). -/
  headAligned : s.life = .ready → s.head % s.cfg.R = 0
  /-- `tail` is a multiple of `R` (40_event_buffer R103). -/
  tailAligned : s.life = .ready → s.tail % s.cfg.R = 0
  /-- No edge is pending while OFF (10_state R32, R41). -/
  offNoEdge : s.life = .off → s.irqPending = false
  /-- No READ is outstanding while OFF (10_state R33, R41, 46_lifecycle R195). -/
  offIdle : s.life = .off → s.rdState = .idle
  /-- Before the first admitted CAPTURE since INIT both indices are still 0 (46_lifecycle R192, 40_event_buffer R104). -/
  unsetEmpty : s.life = .ready → s.dblValid = false → s.head = 0 ∧ s.tail = 0
  /-- The record behind the head holds the timestamp of the last admitted CAPTURE, which is `dbl_last`
  (40_event_buffer R104, 41_debounce R110). -/
  latest : s.life = .ready → s.dblValid = true → recordIs s (prev s.cfg s.head) s.dblLast

/-! ### Reading a result, a line of text and a schedule -/

/-- The state of an outcome that is a next state. -/
def nextOf : Result → Option State
  | .next t => some t
  | .fault _ => none
  | .refused _ => none

/-- The outcome with its next state changed by `f`. -/
def mapNext (f : State → State) : Result → Result
  | .next t => .next (f t)
  | .fault e => .fault e
  | .refused e => .refused e

/-- `n` executions of one operation. -/
def repeatExec (i : Instr) : Nat → State → Result
  | 0, s => .next s
  | n + 1, s =>
    match exec i s with
    | .next t => repeatExec i n t
    | .fault e => .fault e
    | .refused e => .refused e

/-- An ASCII decimal digit (43_reader R143). -/
abbrev isDigit (b : Byte) : Prop := 0x30 ≤ b.toNat ∧ b.toNat ≤ 0x39

/-- The number a string of ASCII decimal digits denotes, most significant first (43_reader R143). -/
def decimalValue : List Byte → Nat
  | [] => 0
  | b :: bs => (b.toNat - 0x30) * 10 ^ bs.length + decimalValue bs

/-- Where byte `i` of a ControlValue, byte 0 the least significant, stands among its bytes in host memory (20_memory R59; for
`big`, log entry 13). -/
def ctrlPlace (p : Params) (i : Nat) : Nat :=
  match p.hostEndian with
  | .little => i
  | .big => p.ctrlLen - 1 - i

/-- The bytes of a ControlValue in host memory, from the lowest address up: at each place the byte that stands there
(20_memory R59). -/
def ctrlInOrder (p : Params) (v : Nat) : List Byte :=
  (List.range p.ctrlLen).map fun i => BitVec.ofNat 8 (v >>> (8 * ctrlPlace p i))

/-- `v` is the ControlValue in host memory at `arg`: bit `j` of its `CTRL_W` bits is bit `j % 8` of the byte at the place of
byte `j / 8` (30_encoding R79). -/
def ctrlAt (s : State) (arg v : Nat) : Prop :=
  v < 2 ^ s.cfg.ctrlW ∧
    ∀ j < s.cfg.ctrlW, v.testBit j = (hmemByte s.cfg s.hmem (arg + ctrlPlace s.cfg (j / 8))).getLsbD (j % 8)

/-- `s` with the event path of `e`: the buffer, its indices, the debounce state, the latch, the reader's state and the display
string (44_control R170). -/
def withEventPath (s e : State) : State :=
  { s with
    buf := e.buf
    bufGen := e.bufGen
    head := e.head
    tail := e.tail
    dblLast := e.dblLast
    dblValid := e.dblValid
    irqPending := e.irqPending
    rdState := e.rdState
    rdLen := e.rdLen
    rdAddr := e.rdAddr
    msg := e.msg
    msgLen := e.msgLen }

/-- The operations of the Control Channel (44_control). -/
def isCtrl : Instr → Bool
  | .edge => false
  | .tick _ => false
  | .read _ _ => false
  | .cancel => false
  | .write _ _ => false
  | .ctrlSet _ => true
  | .ctrlGet _ => true
  | .ctrlExchange _ => true
  | .ctrlInvalid _ _ => true
  | .init => false
  | .teardown => false
  | .reserved _ => false

/-- The operations that may not be presented while OFF (70_reset R232, R233). -/
def needsReady : Instr → Bool
  | .edge => false
  | .tick _ => false
  | .read _ _ => true
  | .cancel => true
  | .write _ _ => true
  | .ctrlSet _ => true
  | .ctrlGet _ => true
  | .ctrlExchange _ => true
  | .ctrlInvalid _ _ => true
  | .init => false
  | .teardown => true
  | .reserved _ => false

/-- The operation the next move presents, if it is a request. -/
def nextRequest (s : State) : Option Instr :=
  match s.moves with
  | ⟨.request r, _⟩ :: _ => some (decode s.cfg r)
  | ⟨.auto _, _⟩ :: _ => none
  | ⟨.hostStore _ _, _⟩ :: _ => none
  | [] => none

/-- The autonomous step the next move takes, if it is one. -/
def nextAuto (s : State) : Option AutoStep :=
  match s.moves with
  | ⟨.request _, _⟩ :: _ => none
  | ⟨.auto a, _⟩ :: _ => some a
  | ⟨.hostStore _ _, _⟩ :: _ => none
  | [] => none

/-- `s` with the elements forgotten that hold no value while OFF (10_state R41). -/
def forgetWhileOff (s : State) : State :=
  match s.life with
  | .off => forget s
  | .ready => s

end Sys2Proof.Machine
end

