-- ==== Sys2Proof/WellFormed.lean ====
section
/-! DEFINITION. Which terms of Instr are operations a request can name: operands of their fields' widths, a command word
that is what its constructor says, and a reserved operation select that is one (30_encoding R70, R78, R80). -/

namespace Sys2Proof

/-- An operation some request decodes to, under the parameters `p`. -/
def WellFormed (p : Params) : Instr → Bool
  | .edge => true
  | .tick k => decide (k < 2 ^ p.lenW)
  | .read n dst => decide (n < 2 ^ p.lenW) && decide (dst < 2 ^ p.haddrW)
  | .cancel => true
  | .write n src => decide (n < 2 ^ p.lenW) && decide (src < 2 ^ p.haddrW)
  | .ctrlSet arg => decodeCmd p (cmdSet p) == .set && decide (arg < 2 ^ p.haddrW)
  | .ctrlGet arg => decodeCmd p (cmdGet p) == .get && decide (arg < 2 ^ p.haddrW)
  | .ctrlExchange arg => decodeCmd p (cmdExchange p) == .exchange && decide (arg < 2 ^ p.haddrW)
  | .ctrlInvalid c arg => decodeCmd p c == .invalid && decide (arg < 2 ^ p.haddrW)
  | .init => true
  | .teardown => true
  | .reserved op => decide (0x8#4 ≤ op)

end Sys2Proof
end

