-- ==== Sys2Proof/Certificates/Slice0/Obligations.lean ====
section
/-! DEFINITION. The statements for the provers. Each docstring names the rule of spec/ it formalises. Where a statement
says that some value exists (`∃ len addr ctr, …`), that value is one the spec leaves unspecified. -/

open Sys2Proof Sys2Proof.Machine

/-! ### Decoding -/

/-- Decode and encode agree: no operand of a well-formed operation is dropped (30_encoding R70, R71, R73, R77, R85).
`SIZE` in the command words of a `CTRL_W` other than 32 is the model's choice (log entry 12). -/
def Obligations.DecodeEncodeRoundTrip : Prop :=
  ∀ (p : Params) (i : Instr), WellFormed p i = true → decode p (encode p i) = i

/-- Every request decodes to a well-formed operation, whatever its bits (30_encoding R70, R78, R80, R85). `SIZE` in the command
words of a `CTRL_W` other than 32 is the model's choice (log entry 12). -/
def Obligations.DecodedRequestsAreWellFormed : Prop :=
  ∀ (p : Params) (r : Request), WellFormed p (decode p r) = true

/-- The decoder gives every request the operation of the first row of the opcode map its word matches, and there is one
(30_encoding R85). -/
def Obligations.DecodeFollowsOpcodeMap : Prop :=
  ∀ r : Request, firstRow r.word = some (mnemonic (decode Params.default r))

/-- The four fields of a command word, and that they are all of it (30_encoding R76). -/
def Obligations.CommandWordFields : Prop :=
  (∀ (dir : BitVec 2) (size : BitVec 14) (type nr : BitVec 8),
    cmdDir (cmdWord dir size type nr) = dir ∧ cmdSize (cmdWord dir size type nr) = size ∧
      cmdType (cmdWord dir size type nr) = type ∧ cmdNr (cmdWord dir size type nr) = nr) ∧
  ∀ c : CmdWord, cmdWord (cmdDir c) (cmdSize c) (cmdType c) (cmdNr c) = c

/-- A command word is valid exactly when its group identifier is the magic, its index is within the maximum and its four
fields are those of SET, GET or EXCHANGE (30_encoding R77, R78). `SIZE` is the size of a ControlValue in bytes, 4 with the
default `CTRL_W`; for another `CTRL_W` that is the model's choice (log entry 12). -/
def Obligations.ValidCommandWords : Prop :=
  ∀ (p : Params) (c : CmdWord),
    decodeCmd p c ≠ .invalid ↔
      (cmdType c = p.cmdMagic ∧ (cmdNr c).toNat ≤ p.cmdMaxNr.toNat ∧ cmdSize c = BitVec.ofNat 14 ((p.ctrlW + 7) / 8) ∧
        ((cmdDir c = 0b01 ∧ cmdNr c = p.nrSet) ∨ (cmdDir c = 0b10 ∧ cmdNr c = p.nrGet) ∨
          (cmdDir c = 0b11 ∧ cmdNr c = p.nrExchange)))

/-- Where `OP` is not 5 the command word makes no difference (30_encoding R72). -/
def Obligations.DecodeIgnoresCmd : Prop :=
  ∀ (p : Params) (op : BitVec 4) (c d : CmdWord) (len addr : Nat), op ≠ 5 →
    decode p ⟨reqWord op c, len, addr⟩ = decode p ⟨reqWord op d, len, addr⟩

/-- Some words written out from the spec's encodings (95_test_vectors 2.9). -/
def Obligations.DecodeSampleWords : Prop :=
  decode Params.default ⟨0x000000000, 0, 0⟩ = .edge ∧
  decode Params.default ⟨0x0FFFFFFFF, 0, 0⟩ = .edge ∧
  decode Params.default ⟨0x100000000, 10, 0⟩ = .tick 10 ∧
  decode Params.default ⟨0x2DEADBEEF, 17, 0x1000⟩ = .read 17 0x1000 ∧
  decode Params.default ⟨0x400000000, 5, 0x1000⟩ = .write 5 0x1000 ∧
  decode Params.default ⟨0x540046B00, 0, 0x3000⟩ = .ctrlSet 0x3000 ∧
  decode Params.default ⟨0x580046B01, 0, 0x3010⟩ = .ctrlGet 0x3010 ∧
  decode Params.default ⟨0x5C0046B02, 0, 0x3000⟩ = .ctrlExchange 0x3000 ∧
  decode Params.default ⟨0x5C0046B01, 0, 0x3000⟩ = .ctrlInvalid 0xC0046B01 0x3000 ∧
  decode Params.default ⟨0x600000000, 0, 0⟩ = .init ∧
  decode Params.default ⟨0x700000000, 0, 0⟩ = .teardown ∧
  decode Params.default ⟨0xF00000000, 0, 0⟩ = .reserved 0xF

/-- A request whose `OP` has its top bit set decodes to a reserved operation, and executing one sets the refused mark and
does nothing else: in particular it gives no response (30_encoding R80, 00_scope R15, 10_state R36). -/
def Obligations.ReservedOpIsRefused : Prop :=
  (∀ (p : Params) (r : Request), r.word.getLsbD 35 = true → ∃ op, decode p r = .reserved op) ∧
  ∀ (op : BitVec 4) (s : State), exec (.reserved op) s = .next { s with refused := true }

/-! ### The step -/

/-- A step whose next move presents a request executes the decoded operation, with that move's draws and the move taken
off the list (00_scope R14, 10_state R22). The list of moves is the model's (log entries 1 and 2). -/
def Obligations.StepRunsPresentedRequest : Prop :=
  ∀ (s : State) (r : Request) (d : Draws) (rest : List Move), s.cfg.Ok →
    s.moves = ⟨.request r, d⟩ :: rest →
      step s = exec (decode s.cfg r) { s with moves := rest, draws := d }

/-- The other moves: an autonomous step, the host's change of one byte of its memory, and none (10_state R22, 20_memory R55).
The list of moves is the model's (log entries 1, 2 and 20). -/
def Obligations.StepTakesOtherMoves : Prop :=
  ∀ (s : State) (d : Draws) (rest : List Move), s.cfg.Ok →
    (s.moves = ⟨.auto .capture, d⟩ :: rest → step s = captureStep { s with moves := rest, draws := d }) ∧
    (s.moves = ⟨.auto .complete, d⟩ :: rest → step s = completeStep { s with moves := rest, draws := d }) ∧
    (∀ (a : Nat) (b : Byte), s.moves = ⟨.hostStore a b, d⟩ :: rest →
      step s = .next { s with moves := rest, draws := d, hmem := hmemPut s.cfg s.hmem a b }) ∧
    (s.moves = [] → step s = .next s)

/-- A configuration is refused exactly when it breaks one of the constraints (00_scope R11). -/
def Obligations.BadConfigurationIsRefused : Prop :=
  ∀ s : State,
    step s = .refused .badConfiguration ↔
      ¬(s.cfg.R = 8 ∧ s.cfg.C % s.cfg.R = 0 ∧ 2 ≤ s.cfg.C / s.cfg.R ∧ s.cfg.minInterval < 2 ^ s.cfg.tsW)

/-- A table word placed as the next request is the operation the next step executes (log entry 16). -/
def Obligations.TableWordRunsNext : Prop :=
  ∀ (s : State) (nbits w : Nat) (i : Instr), s.cfg = Params.default → decodeTableWord nbits w = some i →
    step (s.withFetchWord nbits w) = exec i s

/-! ### The invariant -/

/-- The invariant holds at power-on, under every configuration R11 allows. -/
def Obligations.PowerOnHasInv : Prop :=
  ∀ p : Params, p.Ok → Inv (State.powerOn p)

/-- Every step keeps the invariant: the canonical memories, the index invariant R103, the latest-record invariant R104, the
display string's zero rest, the widths of the ControlValue and of the reader's operands, and no pending edge and no waiting
reader while OFF. -/
def Obligations.StepKeepsInv : Prop :=
  ∀ s t : State, Inv s → step s = .next t → Inv t

/-- The values the spec gives power-on, under every `T0` (10_state R41, 70_reset R230). That the model's reset is power-on
with the default parameters, the OPEN ones at the test values, is the model's choice (log entry 3). -/
def Obligations.PowerOnValues : Prop :=
  ∀ p : Params, (State.powerOn p).life = .off ∧ (State.powerOn p).irqPending = false ∧
    (State.powerOn p).rdState = .idle ∧ (State.powerOn p).ticks = p.t0 ∧ (State.powerOn p).refused = false ∧
    State.reset = State.powerOn Params.default

/-- In a good state CAPTURE and COMPLETE take their step exactly when they are enabled: neither can be held by anything
else (10_state R22, 42_capture R127, 43_reader R146). -/
def Obligations.AutonomousStepsRunWhenEnabled : Prop :=
  ∀ s : State, Inv s →
    ((∃ t, captureStep s = .next t) ↔ (s.life = .ready ∧ s.irqPending = true)) ∧
    ((∃ t, completeStep s = .next t) ↔ (s.life = .ready ∧ s.rdState = .wait ∧ s.head ≠ s.tail))

/-! ### Environment and capture -/

/-- EDGE sets `irq_pending` while READY, has no effect while OFF, and gets no response (42_capture R120). -/
def Obligations.EdgeSetsPending : Prop :=
  ∀ s : State,
    (s.life = .ready → exec .edge s = .next { s with irqPending := true }) ∧
    (s.life = .off → exec .edge s = .next s)

/-- TICK adds `k` to `ticks` modulo `2^64`, in both `life` states, and changes nothing else; INIT does not reset `ticks`
(42_capture R122). -/
def Obligations.TickAddsModulo : Prop :=
  (∀ (s : State) (k : Nat), ∃ v : Timestamp, v.toNat = (s.ticks.toNat + k) % 2 ^ 64 ∧
    exec (.tick k) s = .next { s with ticks := v }) ∧
  ∀ s t : State, exec .init s = .next t → t.ticks = s.ticks

/-- One TICK of `k` ticks has the effect of `k` successive TICKs of one (42_capture R123). -/
def Obligations.TickIsRepeatedSingleTicks : Prop :=
  ∀ (s : State) (k : Nat), repeatExec (.tick 1) k s = exec (.tick k) s

/-- CAPTURE: not enabled without a pending edge; admitted, it clears the latch, records the time, writes the record at
`head` and advances `head`; rejected, it clears the latch and does nothing else (42_capture R124, R126, 41_debounce R110).
That the step of a CAPTURE which is not enabled ends in a refusal is the model's choice (log entry 11). -/
def Obligations.CaptureStepRule : Prop :=
  ∀ s : State, Inv s →
    (¬(s.life = .ready ∧ s.irqPending = true) → captureStep s = .refused (.notEnabled .capture)) ∧
    (s.life = .ready → s.irqPending = true →
      (s.dblValid = false ∨ s.cfg.minInterval ≤ (s.ticks.toNat + 2 ^ 64 - s.dblLast.toNat) % 2 ^ 64 →
        captureStep s = .next
          { s with
            irqPending := false
            dblLast := s.ticks
            dblValid := true
            buf := bufPut s.buf s.head (leBytes s.cfg.R s.ticks.toNat)
            head := if s.head + s.cfg.R = s.cfg.C then 0 else s.head + s.cfg.R }) ∧
      (¬(s.dblValid = false ∨ s.cfg.minInterval ≤ (s.ticks.toNat + 2 ^ 64 - s.dblLast.toNat) % 2 ^ 64) →
        captureStep s = .next { s with irqPending := false }))

/-- An admitted CAPTURE writes `ticks` as the 8 bytes at `head`, least significant first, and every other byte of the buffer
reads as before (20_memory R51, R52, 42_capture R124). -/
def Obligations.CaptureWritesOneRecord : Prop :=
  ∀ s t : State, Inv s → captureStep s = .next t → t.head ≠ s.head →
    (∀ i < 8, bufByte t (s.head + i) = s.ticks.extractLsb' (8 * i) 8) ∧
    ∀ off, off < s.head ∨ s.head + 8 ≤ off → bufByte t off = bufByte s off

/-- Of two CAPTURE steps whose times differ by less than `MIN_INTERVAL`, the second seeing the debounce state the first
left, at least one is rejected (41_debounce R113). -/
def Obligations.DebounceAdmitsOneOfTwo : Prop :=
  ∀ s s' u u' : State, captureStep s = .next s' →
    u.dblLast = s'.dblLast → u.dblValid = s'.dblValid → u.cfg = s'.cfg → captureStep u = .next u' →
    (u.ticks - s.ticks).toNat < s.cfg.minInterval →
      s' = { s with irqPending := false } ∨ u' = { u with irqPending := false }

/-- `N = C / R` advances by one record bring an index back to where it was, and no fewer do (40_event_buffer R100, R107). -/
def Obligations.LapReturnsHead : Prop :=
  ∀ (p : Params) (h : Nat), p.Ok → h < p.C → h % p.R = 0 →
    (fun i => advance p i p.R)^[p.C / p.R] h = h ∧
    ∀ k, 0 < k → k < p.C / p.R → (fun i => advance p i p.R)^[k] h ≠ h

/-- Lap loss: of admitted CAPTUREs with no step between them that moves the head or the tail, the `N`th brings the head back
to where it was, no earlier one does, and if that was the tail the buffer then reads empty (40_event_buffer R107,
70_reset R240). The `i`th CAPTURE goes from `u i` to `t i`. -/
def Obligations.NthCaptureLapsTheBuffer : Prop :=
  ∀ (u t : Nat → State) (n : Nat), 0 < n → n ≤ (u 0).cfg.C / (u 0).cfg.R →
    (∀ i < n, Inv (u i) ∧ admits (u i).ticks (u i) = true ∧ captureStep (u i) = .next (t i)) →
    (∀ i, i + 1 < n → (u (i + 1)).head = (t i).head ∧ (u (i + 1)).tail = (t i).tail ∧ (u (i + 1)).cfg = (t i).cfg) →
      ((t (n - 1)).head = (u 0).head ↔ n = (u 0).cfg.C / (u 0).cfg.R) ∧
      (n = (u 0).cfg.C / (u 0).cfg.R → (u 0).head = (u 0).tail → (t (n - 1)).head = (t (n - 1)).tail)

/-! ### The reader -/

/-- A READ while one waits, and a READ or CANCEL while OFF, is refused: no response, and the mark is set (43_reader R140,
00_scope R15). -/
def Obligations.ReadAndCancelRefused : Prop :=
  ∀ (s : State) (n dst : Nat),
    (s.rdState = .wait ∨ s.life = .off → exec (.read n dst) s = .next { s with refused := true }) ∧
    (s.life = .off → exec .cancel s = .next { s with refused := true })

/-- A READ that finds the buffer empty joins the WaitSet in that one step, with its operands and no response (43_reader R141,
R142). -/
def Obligations.ReadOnEmptyJoinsWaitSet : Prop :=
  ∀ (s : State) (n dst : Nat), s.life = .ready → s.rdState = .idle → s.head = s.tail →
    exec (.read n dst) s = .next { s with rdState := .wait, rdLen := n, rdAddr := dst }

/-- A READ that finds data delivers the first `min(n, L)` bytes of the line of the last admitted timestamp, moves the tail
to the head, or to 0 where the head has wrapped, and answers the count; a copy of no bytes always succeeds (43_reader
R141, R144, R145, R157, 20_memory R58, 40_event_buffer R104). A count of `2^64` or more is no 64-bit VALUE and is answered
by a free value, the model's choice (log entry 22). Of a copy longer than
`2^HADDR_W` bytes, that the later of two bytes at one address stands is the model's choice (log entry 23). -/
def Obligations.ReadDeliversLatestLine : Prop :=
  ∀ (s : State) (n dst : Nat), Inv s → s.life = .ready → s.rdState = .idle → s.head ≠ s.tail →
    s.draws.writeOk = true ∨ n = 0 →
      exec (.read n dst) s = .next
        { s with
          hmem := hmemStore s.cfg s.hmem dst ((fmt s.cfg s.dblLast).take n)
          tail := if s.tail ≤ s.head then s.head else 0
          responses := s.responses ++
            [⟨.read, .ok, countValue (min n (fmt s.cfg s.dblLast).length)⟩] }

/-- A READ whose copy faults answers BAD_ADDRESS and leaves the tail and all else as it was, but for arbitrary bytes in
the range of the copy (43_reader R145, 20_memory R58, 60_exceptions R202). -/
def Obligations.ReadCopyFaultKeepsTail : Prop :=
  ∀ (s : State) (n dst : Nat), Inv s → s.life = .ready → s.rdState = .idle → s.head ≠ s.tail →
    s.draws.writeOk = false → n ≠ 0 →
      ∃ (bytes : List Byte) (ctr : Nat), bytes.length = min n (fmt s.cfg s.dblLast).length ∧
        exec (.read n dst) s = .next
          { s with
            hmem := hmemStore s.cfg s.hmem dst bytes
            freeCtr := ctr
            responses := s.responses ++ [⟨.read, .badAddress, 0⟩] }

/-- COMPLETE delivers to the stored operands of the outstanding READ and ends the wait, with the copy succeeding or
faulting; a copy of no bytes always succeeds (43_reader R145, R146, R157, 20_memory R58). The operands are unspecified
afterwards (10_state R33). A count of `2^64` or more is answered by a free value, the model's choice (log entry 22).
Of a copy longer than `2^HADDR_W` bytes, that the later of two bytes at one address stands is the model's choice (log
entry 23). -/
def Obligations.CompleteDeliversStoredRead : Prop :=
  ∀ s : State, Inv s → s.life = .ready → s.rdState = .wait → s.head ≠ s.tail →
    (s.draws.writeOk = true ∨ s.rdLen = 0 → ∃ len addr ctr : Nat,
      completeStep s = .next
        { s with
          hmem := hmemStore s.cfg s.hmem s.rdAddr ((fmt s.cfg s.dblLast).take s.rdLen)
          tail := if s.tail ≤ s.head then s.head else 0
          rdState := .idle, rdLen := len, rdAddr := addr, freeCtr := ctr
          responses := s.responses ++
            [⟨.read, .ok, countValue (min s.rdLen (fmt s.cfg s.dblLast).length)⟩] }) ∧
    (s.draws.writeOk = false → s.rdLen ≠ 0 →
      ∃ (bytes : List Byte) (len addr ctr : Nat),
        bytes.length = min s.rdLen (fmt s.cfg s.dblLast).length ∧
        completeStep s = .next
          { s with
            hmem := hmemStore s.cfg s.hmem s.rdAddr bytes
            rdState := .idle, rdLen := len, rdAddr := addr, freeCtr := ctr
            responses := s.responses ++ [⟨.read, .badAddress, 0⟩] })

/-- A READ of no bytes succeeds whatever the host answers, delivers nothing and still moves the tail (43_reader R157,
R145). -/
def Obligations.ReadOfNoBytesStillDrains : Prop :=
  ∀ (s : State) (dst : Nat), Inv s → s.life = .ready → s.rdState = .idle → s.head ≠ s.tail →
    exec (.read 0 dst) s = .next
      { s with
        tail := if s.tail ≤ s.head then s.head else 0
        responses := s.responses ++ [⟨.read, .ok, 0⟩] }

/-- After a successful delivery the tail is in range and aligned, and has moved forward in the ring by what was available,
which is at most the distance to the head: it never passes the head (43_reader R152). -/
def Obligations.DeliveryMovesTailForward : Prop :=
  ∀ (s t : State) (n dst : Nat) (v : BitVec 64), Inv s → s.life = .ready → s.head ≠ s.tail →
    (exec (.read n dst) s = .next t ∨ completeStep s = .next t) →
    t.responses = s.responses ++ [⟨.read, .ok, v⟩] →
      t.tail < s.cfg.C ∧ t.tail % s.cfg.R = 0 ∧
      t.tail = (s.tail + available s.cfg s.head s.tail) % s.cfg.C ∧
      0 < available s.cfg s.head s.tail ∧
      available s.cfg s.head s.tail ≤ (s.head + s.cfg.C - s.tail) % s.cfg.C

/-- A READ that finds `head < tail` leaves the tail at 0; if `head > 0` the next READ does not wait, delivers the same record
again, and moves the tail to the head (70_reset R242). Of a copy longer than `2^HADDR_W`
bytes, that the later of two bytes at one address stands is the model's choice (log entry 23). -/
def Obligations.WrappedReadDeliversTwice : Prop :=
  ∀ (s : State) (n m a b : Nat), Inv s → s.life = .ready → s.rdState = .idle →
    s.head < s.tail → s.draws.writeOk = true →
      ∃ t : State, exec (.read n a) s = .next t ∧ t.tail = 0 ∧
        t.hmem = hmemStore s.cfg s.hmem a ((fmt s.cfg s.dblLast).take n) ∧
        (0 < s.head → ∃ u : State, exec (.read m b) t = .next u ∧ u.tail = s.head ∧
          u.hmem = hmemStore s.cfg t.hmem b ((fmt s.cfg s.dblLast).take m))

/-- CANCEL gives a waiting READ INTERRUPTED and then answers itself; with no READ waiting it only answers; while OFF it is
refused. The indices, the buffer and the rest stay as they were (43_reader R150). -/
def Obligations.CancelInterruptsWaitingRead : Prop :=
  ∀ s : State,
    (s.life = .ready → s.rdState = .wait → ∃ len addr ctr : Nat,
      exec .cancel s = .next
        { s with
          rdState := .idle, rdLen := len, rdAddr := addr, freeCtr := ctr
          responses := s.responses ++ [⟨.read, .interrupted, 0⟩, ⟨.cancel, .ok, 0⟩] }) ∧
    (s.life = .ready → s.rdState = .idle →
      exec .cancel s = .next { s with responses := s.responses ++ [⟨.cancel, .ok, 0⟩] }) ∧
    (s.life = .off → exec .cancel s = .next { s with refused := true })

/-- With COMPLETE enabled, COMPLETE and CANCEL may come in either order: after COMPLETE a CANCEL only answers; after
CANCEL the READ is interrupted, the data stays in the buffer, and COMPLETE is not enabled (43_reader R151). That the step
of a COMPLETE which is not enabled ends in a refusal is the model's choice (log entry 11). -/
def Obligations.CompleteAndCancelEitherOrder : Prop :=
  ∀ s : State, Inv s → s.life = .ready → s.rdState = .wait → s.head ≠ s.tail →
    (∃ t, completeStep s = .next t ∧
      exec .cancel t = .next { t with responses := t.responses ++ [⟨.cancel, .ok, 0⟩] }) ∧
    ∃ t, exec .cancel s = .next t ∧
      t.responses = s.responses ++ [⟨.read, .interrupted, 0⟩, ⟨.cancel, .ok, 0⟩] ∧
      t.buf = s.buf ∧ t.head = s.head ∧ t.tail = s.tail ∧
      ¬completeEnabled t ∧ completeStep t = .refused (.notEnabled .complete)

/-- A waiting READ stays outstanding, with its operands, through every step but a COMPLETE and a CANCEL (43_reader R149,
R150, R146). -/
def Obligations.WaitingReadStaysOutstanding : Prop :=
  ∀ s t : State, Inv s → s.rdState = .wait → step s = .next t →
    nextRequest s ≠ some .cancel → nextAuto s ≠ some .complete →
      t.rdState = .wait ∧ t.rdLen = s.rdLen ∧ t.rdAddr = s.rdAddr

/-- COMPLETE leaves what a READ with the same operands, issued at that moment, would have left, but for what is unspecified
(43_reader R156). -/
def Obligations.CompleteEqualsFreshRead : Prop :=
  ∀ s : State, Inv s → s.life = .ready → s.rdState = .wait → s.head ≠ s.tail →
    ∃ (t u : State) (len addr ctr : Nat),
      completeStep s = .next t ∧
      exec (.read s.rdLen s.rdAddr) { s with rdState := .idle } = .next u ∧
      t = { u with rdLen := len, rdAddr := addr, freeCtr := ctr }

/-- A READ on an empty buffer waits, and once a CAPTURE is admitted COMPLETE answers it with exactly that event's line and
leaves the buffer empty (43_reader R153, 95_test_vectors W6). A count of `2^64` or more is answered by a free value, the
model's choice (log entry 22). Of a copy longer than `2^HADDR_W` bytes, that the later of two bytes at one address
stands is the model's choice (log entry 23). -/
def Obligations.BlockedReadGetsNextEvent : Prop :=
  ∀ (s : State) (n dst : Nat), Inv s → s.life = .ready → s.rdState = .idle → s.head = s.tail →
    s.irqPending = true → admits s.ticks s = true → s.draws.writeOk = true →
      ∃ t u v : State,
        exec (.read n dst) s = .next t ∧ captureStep t = .next u ∧ completeStep u = .next v ∧
        t.responses = s.responses ∧ u.responses = s.responses ∧
        v.responses = s.responses ++
          [⟨.read, .ok, countValue (min n (fmt s.cfg s.ticks).length)⟩] ∧
        v.hmem = hmemStore s.cfg s.hmem dst ((fmt s.cfg s.ticks).take n) ∧
        v.rdState = .idle ∧ v.tail = v.head

/-- A formatted line is a string of at least one decimal digit that reads back as the timestamp, at least `FMT_DIGITS` long
and with no leading zero beyond that, and then a newline (43_reader R143). -/
def Obligations.FormattedLineIsDecimal : Prop :=
  ∀ (p : Params) (v : Timestamp), ∃ ds : List Byte,
    fmt p v = ds ++ [0x0A#8] ∧ (∀ b ∈ ds, isDigit b) ∧ decimalValue ds = v.toNat ∧
    max 1 p.fmtDigits ≤ ds.length ∧ (max 1 p.fmtDigits < ds.length → ds.head? ≠ some 0x30#8)

/-- With 16 digits a line is 17 bytes long for every timestamp below `10^16`, and 18 to 21 bytes long for the others
(43_reader R143, 95_test_vectors 2.4). -/
def Obligations.FormattedLineLength : Prop :=
  ∀ (p : Params) (v : Timestamp), p.fmtDigits = 16 →
    (v.toNat < 10 ^ 16 → (fmt p v).length = 17) ∧
    (10 ^ 16 ≤ v.toNat → 18 ≤ (fmt p v).length ∧ (fmt p v).length ≤ 21)

/-! ### The Control Channel -/

/-- An invalid command answers INVALID_COMMAND and changes nothing (44_control R161). -/
def Obligations.CtrlInvalidChangesNothing : Prop :=
  ∀ (s : State) (c : CmdWord) (arg : Nat), s.life = .ready →
    exec (.ctrlInvalid c arg) s = .next { s with responses := s.responses ++ [⟨.ctrl, .invalidCommand, 0⟩] }

/-- CTRL.SET stores the ControlValue that stands in host memory at `arg`; a failed check or copy answers BAD_ADDRESS and
changes nothing (44_control R161, R163, 30_encoding R79, 20_memory R59). The order of the bytes for `HOST_ENDIAN` = big is the
model's deduction (log entry 13), and what a `CTRL_W` other than 32 means its choice (log entry 12). -/
def Obligations.CtrlSetStoresInput : Prop :=
  ∀ (s : State) (arg : Nat), s.life = .ready →
    ((s.draws.accToBlock = true ∧ s.draws.readOk = true) ∨ s.cfg.ctrlW = 0 → ∃ v : Nat,
      ctrlAt s arg v ∧
      exec (.ctrlSet arg) s = .next
        { s with
          ctrlValue := v
          responses := s.responses ++ [⟨.ctrl, .ok, 0⟩] }) ∧
    (s.cfg.ctrlW ≠ 0 → s.draws.accToBlock = false ∨ s.draws.readOk = false →
      exec (.ctrlSet arg) s = .next { s with responses := s.responses ++ [⟨.ctrl, .badAddress, 0⟩] })

/-- CTRL.GET writes the bytes of the ControlValue to the caller; a failed check answers BAD_ADDRESS and changes nothing; a
failed copy leaves those bytes arbitrary (44_control R161, R164, 30_encoding R79, 20_memory R59). The order of the bytes for
`HOST_ENDIAN` = big is the model's deduction (log entry 13), and what a `CTRL_W` other than 32 means its choice (log
entry 12). Of a copy longer than `2^HADDR_W` bytes, that the later of two bytes at one address stands is the model's choice
(log entry 23). -/
def Obligations.CtrlGetReturnsValue : Prop :=
  ∀ (s : State) (arg : Nat), s.life = .ready →
    ((s.draws.accToHost = true ∧ s.draws.writeOk = true) ∨ s.cfg.ctrlW = 0 →
      exec (.ctrlGet arg) s = .next
        { s with
          hmem := hmemStore s.cfg s.hmem arg (ctrlInOrder s.cfg s.ctrlValue)
          responses := s.responses ++ [⟨.ctrl, .ok, 0⟩] }) ∧
    (s.cfg.ctrlW ≠ 0 → s.draws.accToHost = false →
      exec (.ctrlGet arg) s = .next { s with responses := s.responses ++ [⟨.ctrl, .badAddress, 0⟩] }) ∧
    (s.cfg.ctrlW ≠ 0 → s.draws.accToHost = true → s.draws.writeOk = false →
      ∃ (bytes : List Byte) (ctr : Nat), bytes.length = s.cfg.ctrlLen ∧
        exec (.ctrlGet arg) s = .next
          { s with
            hmem := hmemStore s.cfg s.hmem arg bytes
            freeCtr := ctr
            responses := s.responses ++ [⟨.ctrl, .badAddress, 0⟩] })

/-- CTRL.EXCHANGE sets the ControlValue to twice the value that stands in host memory at `arg`, modulo `2^CTRL_W`, and writes
its bytes back; a failed check or copy-in changes nothing; a failed copy-out leaves those bytes arbitrary and the ControlValue
as it was (44_control R161, R166, 30_encoding R79, 20_memory R59). The order of the bytes for `HOST_ENDIAN` = big is the
model's deduction (log entry 13), and what a `CTRL_W` other than 32 means its choice (log entry 12). Of a copy longer than
`2^HADDR_W` bytes, that the later of two bytes at one address stands is the model's choice (log entry 23). -/
def Obligations.CtrlExchangeDoublesInput : Prop :=
  ∀ (s : State) (arg : Nat), s.life = .ready →
    ((s.draws.accToBlock = true ∧ s.draws.accToHost = true ∧ s.draws.readOk = true ∧ s.draws.writeOk = true) ∨
        s.cfg.ctrlW = 0 →
      ∃ v : Nat, ctrlAt s arg v ∧
        exec (.ctrlExchange arg) s = .next
          { s with
            ctrlValue := 2 * v % 2 ^ s.cfg.ctrlW
            hmem := hmemStore s.cfg s.hmem arg (ctrlInOrder s.cfg (2 * v % 2 ^ s.cfg.ctrlW))
            responses := s.responses ++ [⟨.ctrl, .ok, 0⟩] }) ∧
    (s.cfg.ctrlW ≠ 0 → s.draws.accToBlock = false ∨ s.draws.accToHost = false ∨ s.draws.readOk = false →
      exec (.ctrlExchange arg) s = .next { s with responses := s.responses ++ [⟨.ctrl, .badAddress, 0⟩] }) ∧
    (s.cfg.ctrlW ≠ 0 → s.draws.accToBlock = true → s.draws.accToHost = true → s.draws.readOk = true →
      s.draws.writeOk = false →
        ∃ (bytes : List Byte) (ctr : Nat), bytes.length = s.cfg.ctrlLen ∧
          exec (.ctrlExchange arg) s = .next
            { s with
              hmem := hmemStore s.cfg s.hmem arg bytes
              freeCtr := ctr
              responses := s.responses ++ [⟨.ctrl, .badAddress, 0⟩] })

/-- A successful GET writes the bytes of the value that a successful SET read, in any state that still holds the SET's
ControlValue, in either byte order; where they all have addresses of their own and `CTRL_W` is a number of whole bytes, the
bytes at the GET's address are then those the SET read (44_control R165). The order of the bytes for `HOST_ENDIAN` = big is
the model's deduction (log entry 13), and what a `CTRL_W` other than 32 means its choice (log entry 12). Of a copy longer than
`2^HADDR_W` bytes, that the later of two bytes at one address stands is the model's choice (log entry 23). -/
def Obligations.CtrlSetThenGet : Prop :=
  ∀ (s t u v : State) (a b : Nat), exec (.ctrlSet a) s = .next t →
    t.responses = s.responses ++ [⟨.ctrl, .ok, 0⟩] →
    Memory.wf u.cfg u.hmem → u.cfg = t.cfg → u.ctrlValue = t.ctrlValue → exec (.ctrlGet b) u = .next v →
    v.responses = u.responses ++ [⟨.ctrl, .ok, 0⟩] →
      (∃ w : Nat, ctrlAt s a w ∧ v.hmem = hmemStore s.cfg u.hmem b (ctrlInOrder s.cfg w)) ∧
      (s.cfg.ctrlLen ≤ 2 ^ s.cfg.haddrW → s.cfg.ctrlW % 8 = 0 →
        hmemLoad v.cfg v.hmem b v.cfg.ctrlLen = hmemLoad s.cfg s.hmem a s.cfg.ctrlLen)

/-- A successful EXCHANGE depends on its input alone and not on the previous value; read as two's complement its result is
twice the input reduced to `CTRL_W` bits (44_control R166, R167, 70_reset R245). What a `CTRL_W` other than 32 means is the
model's choice (log entry 12), and the order of the input's bytes for `HOST_ENDIAN` = big its deduction (log entry 13). -/
def Obligations.ExchangeIgnoresOldValue : Prop :=
  ∀ (s t : State) (arg old : Nat), exec (.ctrlExchange arg) s = .next t →
    t.responses = s.responses ++ [⟨.ctrl, .ok, 0⟩] →
      exec (.ctrlExchange arg) { s with ctrlValue := old } = .next t ∧
      ∃ v : Nat, ctrlAt s arg v ∧
        (BitVec.ofNat s.cfg.ctrlW t.ctrlValue).toInt =
          (2 * (BitVec.ofNat s.cfg.ctrlW v).toInt).bmod (2 ^ s.cfg.ctrlW)

/-- Every CTRL response other than OK leaves the ControlValue unchanged (44_control R168). -/
def Obligations.CtrlErrorKeepsValue : Prop :=
  ∀ (i : Instr) (s t : State) (r : Response), isCtrl i = true → exec i s = .next t →
    t.responses = s.responses ++ [r] → r.status ≠ .ok → t.ctrlValue = s.ctrlValue

/-- No CTRL step reads or writes the event path or the display string, and no other step but INIT and TEARDOWN reads or
writes the ControlValue: each commutes with replacing the other's state (44_control R170). -/
def Obligations.CtrlIndependentOfEventPath : Prop :=
  (∀ (i : Instr) (s e : State), isCtrl i = true →
    exec i (withEventPath s e) = mapNext (fun t => withEventPath t e) (exec i s)) ∧
  (∀ (i : Instr) (s : State) (c : Nat), isCtrl i = false → i ≠ .init → i ≠ .teardown →
    exec i { s with ctrlValue := c } = mapNext (fun t => { t with ctrlValue := c }) (exec i s)) ∧
  ∀ (s : State) (c : Nat),
    captureStep { s with ctrlValue := c } = mapNext (fun t => { t with ctrlValue := c }) (captureStep s) ∧
    completeStep { s with ctrlValue := c } = mapNext (fun t => { t with ctrlValue := c }) (completeStep s)

/-! ### The message path -/

/-- WRITE keeps the first `min(n, MSG_MAX)` of the caller's bytes, zeros the rest of the string and answers `n`; a copy that
faults answers BAD_ADDRESS and changes nothing; while OFF it is refused (45_message R180). An `n` of `2^64` or more is no
64-bit VALUE and is answered by a free value, the model's choice (log entry 22). -/
def Obligations.WriteReplacesMessage : Prop :=
  ∀ (s : State) (n src : Nat),
    (s.life = .off → exec (.write n src) s = .next { s with refused := true }) ∧
    (s.life = .ready → (s.draws.readOk = true ∨ min n s.cfg.msgMax = 0) →
      ∃ value : BitVec 64, (n < 2 ^ 64 → value.toNat = n) ∧ exec (.write n src) s = .next
        { s with
          msg := hmemLoad s.cfg s.hmem src (min n s.cfg.msgMax) ++
            List.replicate (s.cfg.msgMax - min n s.cfg.msgMax) 0#8
          msgLen := min n s.cfg.msgMax
          responses := s.responses ++ [⟨.write, .ok, value⟩] }) ∧
    (s.life = .ready → s.draws.readOk = false → min n s.cfg.msgMax ≠ 0 →
      exec (.write n src) s = .next { s with responses := s.responses ++ [⟨.write, .badAddress, 0⟩] })

/-! ### The lifecycle -/

/-- A successful INIT leaves the initial operating state; `dbl_last`, the buffer's bytes and the reader's operands are
unspecified, and everything else is as before (46_lifecycle R190, R192, 10_state R41). -/
def Obligations.InitLeavesInitialState : Prop :=
  ∀ s : State, s.life = .off → s.draws.okB = true → s.draws.okP = true → s.draws.okI = true → s.draws.okD = true →
    ∃ (last : Timestamp) (len addr gen ctr : Nat),
      exec .init s = .next
        { s with
          life := .ready
          buf := [], bufGen := gen
          head := 0, tail := 0
          dblLast := last, dblValid := false
          irqPending := false
          rdState := .idle, rdLen := len, rdAddr := addr
          ctrlValue := 0
          msg := List.replicate s.cfg.msgMax 0, msgLen := 0
          freeCtr := ctr
          responses := s.responses ++ [⟨.init, .ok, 0⟩] }

/-- A failed INIT answers RESOURCE_UNAVAILABLE and leaves the state, OFF among it, as it was, whichever answer was false;
an INIT while READY is refused (46_lifecycle R190, R193). -/
def Obligations.InitFailureKeepsNothing : Prop :=
  ∀ s : State,
    (s.life = .off →
      (s.draws.okB = false ∨ s.draws.okP = false ∨ s.draws.okI = false ∨ s.draws.okD = false) →
        exec .init s = .next { s with responses := s.responses ++ [⟨.init, .resourceUnavailable, 0⟩] }) ∧
    (s.life = .ready → exec .init s = .next { s with refused := true })

/-- TEARDOWN makes the block OFF, discards a pending edge and forgets the buffer, the indices, the debounce state, the
ControlValue and the display string; while OFF or with a READ waiting it is refused (46_lifecycle R195). That a forgotten
element is 0 or empty is the model's choice (log entry 4). -/
def Obligations.TeardownForgetsEverything : Prop :=
  ∀ s : State,
    (s.life = .ready → s.rdState = .idle → ∃ len addr ctr : Nat,
      exec .teardown s = .next
        { s with
          life := .off
          irqPending := false
          buf := [], bufGen := 0
          head := 0, tail := 0
          dblLast := 0, dblValid := false
          ctrlValue := 0
          msg := List.replicate s.cfg.msgMax 0, msgLen := 0
          rdLen := len, rdAddr := addr, freeCtr := ctr
          responses := s.responses ++ [⟨.teardown, .ok, 0⟩] }) ∧
    (s.life = .off ∨ s.rdState = .wait → exec .teardown s = .next { s with refused := true })

/-- While OFF no operation reads an element that holds no value there: replacing them all changes no outcome but in those
elements, as long as the block is still OFF (10_state R24, R41). -/
def Obligations.OffStateHidesValues : Prop :=
  ∀ (i : Instr) (s : State), s.life = .off →
    mapNext forgetWhileOff (exec i s) = mapNext forgetWhileOff (exec i (forget s))

/-- While OFF every host request but INIT is refused: no response, nothing changes but the mark (70_reset R232, R233,
00_scope R15). -/
def Obligations.HostRequestsRefusedWhileOff : Prop :=
  ∀ (i : Instr) (s : State), needsReady i = true → s.life = .off → exec i s = .next { s with refused := true }

/-! ### Whole-machine rules -/

/-- Each request gets exactly one response, except EDGE and TICK; a READ's may come later, with a COMPLETE or a CANCEL, and a
refused request gets none (30_encoding R74, R75, 00_scope R15). -/
def Obligations.EachRequestOneResponse : Prop :=
  (∀ (i : Instr) (s t : State), exec i s = .next t → s.refused = false → t.refused = true →
    t.responses = s.responses) ∧
  (∀ (i : Instr) (s t : State), exec i s = .next t → s.refused = false → t.refused = false →
    match i with
    | .edge | .tick _ => t.responses = s.responses
    | .read _ _ =>
      (t.rdState = .wait ∧ t.responses = s.responses) ∨
        (t.rdState = .idle ∧ ∃ st v, t.responses = s.responses ++ [⟨.read, st, v⟩])
    | .cancel =>
      (s.rdState = .wait ∧ t.responses = s.responses ++ [⟨.read, .interrupted, 0⟩, ⟨.cancel, .ok, 0⟩]) ∨
        (s.rdState = .idle ∧ t.responses = s.responses ++ [⟨.cancel, .ok, 0⟩])
    | .write _ _ => ∃ st v, t.responses = s.responses ++ [⟨.write, st, v⟩]
    | .ctrlSet _ | .ctrlGet _ | .ctrlExchange _ | .ctrlInvalid _ _ =>
      ∃ st, t.responses = s.responses ++ [⟨.ctrl, st, 0⟩]
    | .init => ∃ st, t.responses = s.responses ++ [⟨.init, st, 0⟩]
    | .teardown => t.responses = s.responses ++ [⟨.teardown, .ok, 0⟩]
    | .reserved _ => False) ∧
  (∀ s t : State, captureStep s = .next t → t.responses = s.responses) ∧
  ∀ s t : State, completeStep s = .next t →
    s.rdState = .wait ∧ t.rdState = .idle ∧ ∃ st v, t.responses = s.responses ++ [⟨.read, st, v⟩]

/-- The response word is the status code and the 64-bit value; the codes are 0 to 4, each of one status, and 5 to 7 are the
code of no response (30_encoding R74, R80, 60_exceptions R200). -/
def Obligations.ResponseWordCodes : Prop :=
  (∀ r : Response, responseWord r = (responseWord r).extractLsb' 64 3 ++ r.value ∧
    (responseWord r).extractLsb' 64 3 =
      match r.status with
      | .ok => 0
      | .invalidCommand => 1
      | .badAddress => 2
      | .interrupted => 3
      | .resourceUnavailable => 4) ∧
  (∀ r : Response, ((responseWord r).extractLsb' 64 3).toNat < 5) ∧
  ∀ q r : Response, responseWord q = responseWord r → q.status = r.status ∧ q.value = r.value

/-- A step only adds responses, and every error response carries the value 0 (60_exceptions R200, R201). -/
def Obligations.ErrorResponsesCarryZero : Prop :=
  ∀ s t : State, step s = .next t →
    ∃ rs : List Response, t.responses = s.responses ++ rs ∧ ∀ r ∈ rs, r.status ≠ .ok → r.value = 0

/-- Only CAPTURE writes the head, the buffer and the debounce state, only READ and COMPLETE the tail, and only READ, COMPLETE
and CANCEL the reader's state, INIT and TEARDOWN apart (20_memory R63, 10_state R24 to R28). -/
def Obligations.SingleWriterPerField : Prop :=
  ∀ s t : State, step s = .next t → nextRequest s ≠ some .init → nextRequest s ≠ some .teardown →
    (nextAuto s ≠ some .capture →
      t.head = s.head ∧ t.buf = s.buf ∧ t.bufGen = s.bufGen ∧ t.dblLast = s.dblLast ∧ t.dblValid = s.dblValid) ∧
    (nextAuto s ≠ some .complete → (∀ n dst, nextRequest s ≠ some (.read n dst)) →
      t.tail = s.tail ∧ (nextRequest s ≠ some .cancel → t.rdState = s.rdState)) ∧
    (nextAuto s ≠ some .capture → nextRequest s ≠ some .edge → t.irqPending = s.irqPending) ∧
    t.life = s.life

/-- Only TICK writes `ticks`; only SET and EXCHANGE, INIT and TEARDOWN the ControlValue; only WRITE, INIT and TEARDOWN the
display string; no step clears the refused mark or changes the configuration (10_state R29, R30, R31, R36). -/
def Obligations.WritersOfTheOtherElements : Prop :=
  ∀ s t : State, step s = .next t →
    ((∀ k, nextRequest s ≠ some (.tick k)) → t.ticks = s.ticks) ∧
    (nextRequest s ≠ some .init → nextRequest s ≠ some .teardown →
      ((∀ a, nextRequest s ≠ some (.ctrlSet a)) → (∀ a, nextRequest s ≠ some (.ctrlExchange a)) →
        t.ctrlValue = s.ctrlValue) ∧
      ((∀ n a, nextRequest s ≠ some (.write n a)) → t.msg = s.msg ∧ t.msgLen = s.msgLen)) ∧
    (s.refused = true → t.refused = true) ∧
    t.cfg = s.cfg

/-! ### Frames -/

/-- READ, COMPLETE, CTRL.GET and CTRL.EXCHANGE store to their own range of host memory only, and leave every element alone
that their rule does not write (43_reader R145, 44_control R164, R166, 20_memory R58, R59). The range of a ControlValue is 4 bytes
with the default `CTRL_W`; for another `CTRL_W` its length, `CTRL_W` rounded up to whole bytes, is the model's choice (log
entry 12). -/
def Obligations.StoringStepsFrame : Prop :=
  (∀ (s t : State) (n dst : Nat),
    (exec (.read n dst) s = .next t ∨ (completeStep s = .next t ∧ n = s.rdLen ∧ dst = s.rdAddr)) →
      (t.life = s.life ∧ t.buf = s.buf ∧ t.bufGen = s.bufGen ∧ t.head = s.head ∧ t.dblLast = s.dblLast ∧
        t.dblValid = s.dblValid ∧ t.irqPending = s.irqPending ∧ t.ctrlValue = s.ctrlValue ∧ t.msg = s.msg ∧
        t.msgLen = s.msgLen ∧ t.ticks = s.ticks ∧ t.cfg = s.cfg ∧ t.moves = s.moves ∧ t.draws = s.draws) ∧
      (Memory.wf s.cfg s.hmem → ∀ x : Nat,
        (∀ bytes, bufRead (prev s.cfg s.head) s.cfg.R s = some bytes →
          ∀ k < (deliveredBytes s.cfg n (recordValue bytes)).length, hostAddr s.cfg x ≠ hostAddr s.cfg (dst + k)) →
        hmemByte s.cfg t.hmem x = hmemByte s.cfg s.hmem x)) ∧
  ∀ (s t : State) (arg : Nat),
    (exec (.ctrlGet arg) s = .next t ∨ exec (.ctrlExchange arg) s = .next t) →
      (t.life = s.life ∧ t.buf = s.buf ∧ t.bufGen = s.bufGen ∧ t.head = s.head ∧ t.tail = s.tail ∧
        t.dblLast = s.dblLast ∧ t.dblValid = s.dblValid ∧ t.irqPending = s.irqPending ∧ t.rdState = s.rdState ∧
        t.rdLen = s.rdLen ∧ t.rdAddr = s.rdAddr ∧ t.msg = s.msg ∧ t.msgLen = s.msgLen ∧ t.ticks = s.ticks ∧
        t.cfg = s.cfg ∧ t.moves = s.moves ∧ t.draws = s.draws) ∧
      (exec (.ctrlGet arg) s = .next t → t.ctrlValue = s.ctrlValue) ∧
      (Memory.wf s.cfg s.hmem → ∀ x : Nat, (∀ k < s.cfg.ctrlLen, hostAddr s.cfg x ≠ hostAddr s.cfg (arg + k)) →
        hmemByte s.cfg t.hmem x = hmemByte s.cfg s.hmem x)

/-- Every other operation, and CAPTURE, leaves every byte of host memory as it was (20_memory R54, R55, 44_control R163). -/
def Obligations.OtherStepsKeepHostMemory : Prop :=
  (∀ (i : Instr) (s t : State), exec i s = .next t →
    (∀ n dst, i ≠ .read n dst) → (∀ a, i ≠ .ctrlGet a) → (∀ a, i ≠ .ctrlExchange a) →
      ∀ x : Nat, hmemByte s.cfg t.hmem x = hmemByte s.cfg s.hmem x) ∧
  ∀ s t : State, captureStep s = .next t → ∀ x : Nat, hmemByte s.cfg t.hmem x = hmemByte s.cfg s.hmem x
end

