-- ==== Sys2Proof/Laws/Memory.lean ====
section
/-! SUPPORT. The laws of memory: a read after a write, what a write leaves alone, and that every operation keeps the
canonical form, for host memory and for the Event Buffer's cells. -/

namespace Sys2Proof.Machine

/-! ### Cells -/

@[simp] theorem cellGet_cellPut_same (m : List Host.Cell) (a : Nat) (b : Byte) :
    cellGet (cellPut m a b) a = some b := by
  induction m with
  | nil => simp [cellPut, cellGet]
  | cons c m ih =>
    unfold cellPut
    split
    · simp [cellGet]
    · split
      · simp [cellGet]
      · simp [cellGet, ih]; omega

theorem cellGet_cellPut_other (m : List Host.Cell) {a x : Nat} (b : Byte) (h : x ≠ a) :
    cellGet (cellPut m a b) x = cellGet m x := by
  induction m with
  | nil => simp [cellPut, cellGet, Ne.symm h]
  | cons c m ih =>
    unfold cellPut
    split
    · simp [cellGet, Ne.symm h]
    · split
      · next h1 => simp [cellGet, Ne.symm h, ← h1]
      · simp [cellGet, ih]

theorem mem_cellPut {m : List Host.Cell} {a : Nat} {b : Byte} {c : Host.Cell} (h : c ∈ cellPut m a b) :
    c = (a, b) ∨ c ∈ m := by
  induction m with
  | nil => simpa [cellPut] using h
  | cons d m ih =>
    unfold cellPut at h
    split at h
    · simpa using h
    · split at h
      · simp only [List.mem_cons] at h ⊢; tauto
      · simp only [List.mem_cons] at h ⊢
        rcases h with h | h
        · tauto
        · have := ih h; tauto

theorem mem_cellErase {m : List Host.Cell} {a : Nat} {c : Host.Cell} (h : c ∈ cellErase m a) : c ∈ m := by
  induction m with
  | nil => simp [cellErase] at h
  | cons d m ih =>
    unfold cellErase at h
    split at h
    · exact List.mem_cons_of_mem _ h
    · rcases List.mem_cons.mp h with h | h
      · simp [h]
      · exact List.mem_cons_of_mem _ (ih h)

theorem cellPut_rising {m : List Host.Cell} (h : Memory.rising m) (a : Nat) (b : Byte) :
    Memory.rising (cellPut m a b) := by
  induction m with
  | nil => simp [cellPut]
  | cons c m ih =>
    have hc := List.pairwise_cons.mp h
    unfold cellPut
    split
    · next hlt =>
      refine List.pairwise_cons.mpr ⟨fun d hd => ?_, h⟩
      rcases List.mem_cons.mp hd with rfl | hd
      · exact hlt
      · exact lt_trans hlt (hc.1 d hd)
    · split
      · next heq => exact List.pairwise_cons.mpr ⟨fun d hd => by simpa [heq] using hc.1 d hd, hc.2⟩
      · next h1 h2 =>
        refine List.pairwise_cons.mpr ⟨fun d hd => ?_, ih hc.2⟩
        rcases mem_cellPut hd with rfl | hd
        · simp only; omega
        · exact hc.1 d hd

theorem cellErase_rising {m : List Host.Cell} (h : Memory.rising m) (a : Nat) : Memory.rising (cellErase m a) := by
  induction m with
  | nil => simp [cellErase]
  | cons c m ih =>
    have hc := List.pairwise_cons.mp h
    unfold cellErase
    split
    · exact hc.2
    · exact List.pairwise_cons.mpr ⟨fun d hd => hc.1 d (mem_cellErase hd), ih hc.2⟩

theorem cellGet_eq_none {m : List Host.Cell} {a : Nat} (h : ∀ c ∈ m, c.1 ≠ a) : cellGet m a = none := by
  induction m with
  | nil => rfl
  | cons c m ih =>
    rw [cellGet, if_neg (h c (by simp)), ih fun d hd => h d (by simp [hd])]

theorem cellGet_cellErase_same {m : List Host.Cell} (h : Memory.rising m) (a : Nat) :
    cellGet (cellErase m a) a = none := by
  induction m with
  | nil => rfl
  | cons c m ih =>
    have hc := List.pairwise_cons.mp h
    unfold cellErase
    split
    · next heq => exact cellGet_eq_none fun d hd => by have := hc.1 d hd; omega
    · next hne => simp [cellGet, hne, ih hc.2]

theorem cellGet_cellErase_other (m : List Host.Cell) {a x : Nat} (h : x ≠ a) :
    cellGet (cellErase m a) x = cellGet m x := by
  induction m with
  | nil => rfl
  | cons c m ih =>
    unfold cellErase
    split
    · next heq => rw [cellGet, if_neg (by omega)]
    · simp [cellGet, ih]

/-! ### Host memory -/

section
variable {p : Params} {m : List Host.Cell}

theorem hostAddr_lt (p : Params) (a : Nat) : hostAddr p a < 2 ^ p.haddrW := Nat.mod_lt _ (Nat.two_pow_pos _)

/-- Fewer steps than there are addresses lead to another address. -/
theorem hostAddr_add_ne (a : Nat) {i j : Nat} (hij : i < j) (hj : j < 2 ^ p.haddrW) :
    hostAddr p (a + i) ≠ hostAddr p (a + j) := by
  intro e
  have h := (Nat.ModEq.add_left_cancel' a (show a + i ≡ a + j [MOD 2 ^ p.haddrW] from e))
  rw [Nat.ModEq, Nat.mod_eq_of_lt (hij.trans hj), Nat.mod_eq_of_lt hj] at h
  omega

theorem hmemPut_wf (h : Memory.wf p m) (a : Nat) (b : Byte) : Memory.wf p (hmemPut p m a b) := by
  unfold hmemPut
  split
  · exact ⟨cellErase_rising h.1 _, fun c hc => h.2 c (mem_cellErase hc)⟩
  · next hb =>
    refine ⟨cellPut_rising h.1 _ _, fun c hc => ?_⟩
    rcases mem_cellPut hc with rfl | hc
    · exact ⟨hostAddr_lt p a, hb⟩
    · exact h.2 c hc

/-- Storing keeps the canonical form. -/
theorem hmemStore_wf (h : Memory.wf p m) (a : Nat) (bytes : List Byte) : Memory.wf p (hmemStore p m a bytes) := by
  induction bytes generalizing m a with
  | nil => exact h
  | cons b bs ih => exact ih (hmemPut_wf h a b) (a + 1)

theorem hmemByte_put (h : Memory.rising m) (a x : Nat) (b : Byte) :
    hmemByte p (hmemPut p m a b) x = if hostAddr p x = hostAddr p a then b else hmemByte p m x := by
  unfold hmemByte hmemPut
  by_cases hx : hostAddr p x = hostAddr p a
  · rw [hx]
    split
    · next hb => simp [cellGet_cellErase_same h, hb]
    · simp
  · split
    · rw [cellGet_cellErase_other m hx]
    · rw [cellGet_cellPut_other m b hx]

/-- A byte outside the stored range reads as before. -/
theorem hmemByte_store_other (h : Memory.wf p m) {a x : Nat} {bytes : List Byte}
    (hx : ∀ i < bytes.length, hostAddr p x ≠ hostAddr p (a + i)) :
    hmemByte p (hmemStore p m a bytes) x = hmemByte p m x := by
  induction bytes generalizing m a with
  | nil => rfl
  | cons b bs ih =>
    rw [hmemStore, ih (hmemPut_wf h a b), hmemByte_put h.1, if_neg]
    · exact hx 0 (by simp)
    · intro i hi
      rw [Nat.add_assoc, Nat.add_comm 1]
      exact hx (i + 1) (by simpa using hi)

/-- A stored byte reads back. -/
theorem hmemByte_store_same (h : Memory.wf p m) (a : Nat) {bytes : List Byte}
    (hlen : bytes.length ≤ 2 ^ p.haddrW) {i : Nat} (hi : i < bytes.length) :
    hmemByte p (hmemStore p m a bytes) (a + i) = bytes[i] := by
  induction bytes generalizing m a i with
  | nil => simp at hi
  | cons b bs ih =>
    rw [hmemStore]
    simp only [List.length_cons] at hlen
    cases i with
    | zero =>
      rw [hmemByte_store_other (hmemPut_wf h a b), hmemByte_put h.1]
      · simp
      · intro j hj
        rw [Nat.add_assoc, Nat.add_comm 1]
        exact hostAddr_add_ne a (Nat.succ_pos j) (by omega)
    | succ j =>
      have := ih (hmemPut_wf h a b) (a + 1) (by omega) (i := j) (by simpa using hi)
      rw [Nat.add_assoc, Nat.add_comm 1] at this
      simpa using this

@[simp] theorem hmemLoad_length (p : Params) (m : List Host.Cell) (a n : Nat) : (hmemLoad p m a n).length = n := by
  induction n generalizing a with
  | zero => rfl
  | succ n ih => simp [hmemLoad, ih]

theorem hmemLoad_getElem (m : List Host.Cell) (a : Nat) {n i : Nat} (hi : i < (hmemLoad p m a n).length) :
    (hmemLoad p m a n)[i] = hmemByte p m (a + i) := by
  induction n generalizing a i with
  | zero => simp [hmemLoad] at hi
  | succ n ih =>
    cases i with
    | zero => simp [hmemLoad]
    | succ j =>
      simp only [hmemLoad, List.getElem_cons_succ]
      rw [ih (a + 1) (by simpa using hi), Nat.add_assoc, Nat.add_comm 1]

/-- What was stored is what is loaded. -/
theorem hmemLoad_store (h : Memory.wf p m) (a : Nat) {bytes : List Byte} (hlen : bytes.length ≤ 2 ^ p.haddrW) :
    hmemLoad p (hmemStore p m a bytes) a bytes.length = bytes := by
  apply List.ext_getElem (by simp)
  intro i h1 h2
  rw [hmemLoad_getElem _ _ h1, hmemByte_store_same h a hlen h2]

end

/-! ### Byte order -/

@[simp] theorem leBytes_length (n v : Nat) : (leBytes n v).length = n := by
  induction n generalizing v with
  | zero => rfl
  | succ n ih => simp [leBytes, ih]

/-- Byte `i` of the little-endian bytes of `v` is `v[8i+7:8i]` (20_memory R51). -/
theorem leBytes_getElem {n v i : Nat} (hi : i < (leBytes n v).length) :
    (leBytes n v)[i] = BitVec.ofNat 8 (v / 256 ^ i) := by
  induction n generalizing v i with
  | zero => simp [leBytes] at hi
  | succ n ih =>
    cases i with
    | zero => simp [leBytes]
    | succ j =>
      simp only [leBytes, List.getElem_cons_succ]
      rw [ih (by simpa using hi), Nat.div_div_eq_div_mul, pow_succ, mul_comm]

theorem leNat_leBytes (n v : Nat) : leNat (leBytes n v) = v % 256 ^ n := by
  induction n generalizing v with
  | zero => simp [leBytes, leNat, Nat.mod_one]
  | succ n ih =>
    rw [leBytes, leNat, ih, pow_succ, mul_comm (256 ^ n), Nat.mod_mul]
    simp

theorem leNat_lt (bytes : List Byte) : leNat bytes < 256 ^ bytes.length := by
  induction bytes with
  | nil => simp [leNat]
  | cons b bs ih => simp only [leNat, List.length_cons, pow_succ]; have := b.isLt; omega

theorem leBytes_leNat (bytes : List Byte) : leBytes bytes.length (leNat bytes) = bytes := by
  induction bytes with
  | nil => rfl
  | cons b bs ih =>
    have hb := b.isLt
    have : (b.toNat + 256 * leNat bs) / 256 = leNat bs := by omega
    simp only [List.length_cons, leBytes, leNat, this, ih]
    congr 1
    apply BitVec.eq_of_toNat_eq
    rw [BitVec.toNat_ofNat]
    omega

/-- A record read back as a whole value is the value written (20_memory R52). -/
theorem recordValue_leBytes (v : Timestamp) : recordValue (leBytes 8 v.toNat) = v := by
  apply BitVec.eq_of_toNat_eq
  have := v.isLt
  simp only [recordValue, leNat_leBytes, BitVec.toNat_ofNat]
  norm_num at *
  omega

/-- Bit `j` of the number that bytes hold is bit `j % 8` of byte `j / 8`. -/
theorem testBit_leNat (bytes : List Byte) (j : Nat) :
    (leNat bytes).testBit j = (bytes[j / 8]?.getD 0).getLsbD (j % 8) := by
  induction bytes generalizing j with
  | nil => simp [leNat]
  | cons b bs ih =>
    rw [leNat, Nat.add_comm, show (256 : Nat) = 2 ^ 8 from rfl, Nat.testBit_two_pow_mul_add _ b.isLt]
    split
    · next hj =>
      rw [Nat.div_eq_of_lt hj, Nat.mod_eq_of_lt hj]
      rfl
    · next hj =>
      obtain ⟨k, rfl⟩ : ∃ k, j = k + 8 := ⟨j - 8, by omega⟩
      rw [Nat.add_sub_cancel, ih, Nat.add_div_right k (by norm_num), Nat.add_mod_right, List.getElem?_cons_succ]

/-! ### The ControlValue in host memory -/

/-- The bytes of a ControlValue have room for its bits. -/
theorem ctrlW_le (p : Params) : p.ctrlW ≤ 8 * p.ctrlLen := by unfold Params.ctrlLen; omega

@[simp] theorem ctrlBytes_length (p : Params) (v : Nat) : (ctrlBytes p v).length = p.ctrlLen := by
  unfold ctrlBytes; split <;> simp

theorem ctrlOfBytes_lt (p : Params) (bytes : List Byte) : ctrlOfBytes p bytes < 2 ^ p.ctrlW := by
  unfold ctrlOfBytes; split <;> exact Nat.mod_lt _ (Nat.two_pow_pos _)

/-- The ControlValue crosses to host memory and back unchanged, in either byte order (20_memory R59). -/
theorem ctrlOfBytes_ctrlBytes (p : Params) {v : Nat} (hv : v < 2 ^ p.ctrlW) : ctrlOfBytes p (ctrlBytes p v) = v := by
  have : leNat (leBytes p.ctrlLen v) % 2 ^ p.ctrlW = v := by
    rw [leNat_leBytes, show (256 : Nat) = 2 ^ 8 from rfl, ← pow_mul,
      Nat.mod_eq_of_lt (hv.trans_le (Nat.pow_le_pow_right (by norm_num) (ctrlW_le p))), Nat.mod_eq_of_lt hv]
  unfold ctrlOfBytes ctrlBytes
  cases p.hostEndian <;> simp [this]

/-- With a width of whole bytes every bit of the bytes counts. -/
theorem ctrlBytes_ctrlOfBytes {p : Params} (hw : p.ctrlW = 8 * p.ctrlLen) {bytes : List Byte}
    (h : bytes.length = p.ctrlLen) : ctrlBytes p (ctrlOfBytes p bytes) = bytes := by
  have key : ∀ bs : List Byte, bs.length = p.ctrlLen → leBytes p.ctrlLen (leNat bs % 2 ^ p.ctrlW) = bs := by
    intro bs hb
    have h1 := leNat_lt bs
    rw [hb, show (256 : Nat) = 2 ^ 8 from rfl, ← pow_mul, ← hw] at h1
    rw [Nat.mod_eq_of_lt h1, ← hb, leBytes_leNat]
  unfold ctrlOfBytes ctrlBytes
  cases p.hostEndian
  · exact key bytes h
  · simp only [key bytes.reverse (by simpa using h), List.reverse_reverse]

/-! ### The Event Buffer's cells -/

theorem cellGet_bufPut (m : List Host.Cell) (off : Nat) (bytes : List Byte) (x : Nat) :
    cellGet (bufPut m off bytes) x =
      if off ≤ x ∧ x < off + bytes.length then bytes[x - off]? else cellGet m x := by
  induction bytes generalizing m off with
  | nil => rw [if_neg (by simp only [List.length_nil]; omega)]; rfl
  | cons b bs ih =>
    rw [bufPut, ih]
    simp only [List.length_cons]
    by_cases hx : x = off
    · subst hx
      rw [if_neg (by omega), if_pos (by omega)]
      simp
    · rw [cellGet_cellPut_other m b hx]
      by_cases h1 : off + 1 ≤ x ∧ x < off + 1 + bs.length
      · rw [if_pos h1, if_pos (by omega)]
        obtain ⟨k, rfl⟩ : ∃ k, x = off + 1 + k := ⟨x - (off + 1), by omega⟩
        have e1 : off + 1 + k - (off + 1) = k := by omega
        have e2 : off + 1 + k - off = k + 1 := by omega
        rw [e1, e2, List.getElem?_cons_succ]
      · rw [if_neg h1, if_neg (by omega)]

theorem bufPut_rising {m : List Host.Cell} (h : Memory.rising m) (off : Nat) (bytes : List Byte) :
    Memory.rising (bufPut m off bytes) := by
  induction bytes generalizing m off with
  | nil => exact h
  | cons b bs ih => exact ih (cellPut_rising h off b) (off + 1)

theorem mem_bufPut {m : List Host.Cell} {off : Nat} {bytes : List Byte} {c : Host.Cell}
    (h : c ∈ bufPut m off bytes) : (off ≤ c.1 ∧ c.1 < off + bytes.length) ∨ c ∈ m := by
  induction bytes generalizing m off with
  | nil => exact .inr h
  | cons b bs ih =>
    simp only [List.length_cons]
    rcases ih h with h | h
    · left; omega
    · rcases mem_cellPut h with rfl | h
      · left; simp only; omega
      · exact .inr h

end Sys2Proof.Machine
end

