-- ==== Sys2Proof/Laws/Buffer.lean ====
section
/-! SUPPORT. The laws of the Event Buffer: index arithmetic under the constraints of 00_scope R11, and what BufWrite and
BufRead do to records. -/

namespace Sys2Proof.Machine

/-! ### Configuration -/

theorem Ok_R {p : Params} (h : p.Ok) : p.R = 8 := h.1

theorem Ok_C_mod {p : Params} (h : p.Ok) : p.C % 8 = 0 := by
  have := h.2.1; rwa [Ok_R h] at this

theorem Ok_C_ge {p : Params} (h : p.Ok) : 16 ≤ p.C := by
  have h1 : 2 ≤ p.C / p.R := h.2.2.1
  rw [Ok_R h] at h1; omega

/-! ### Index arithmetic -/

/-- An advance by one record stays in range and aligned. -/
theorem advance_record {p : Params} (h : p.Ok) {i : Nat} (hal : i % p.R = 0) :
    advance p i p.R < p.C ∧ advance p i p.R % p.R = 0 := by
  have hR := Ok_R h
  have hC := Ok_C_mod h
  have hge := Ok_C_ge h
  unfold advance
  rw [hR] at hal ⊢
  split <;> constructor <;> omega

/-- The record behind an aligned head is a legal buffer access. -/
theorem prev_access {p : Params} (h : p.Ok) {i : Nat} (hlt : i < p.C) (hal : i % p.R = 0) :
    bufAccessOk p (prev p i) p.R := by
  have hR := Ok_R h
  have hC := Ok_C_mod h
  have hge := Ok_C_ge h
  unfold prev
  rw [hR] at hal
  refine ⟨?_, rfl, ?_⟩ <;> rw [hR] <;> split <;> omega

theorem head_access {p : Params} (h : p.Ok) {i : Nat} (hlt : i < p.C) (hal : i % p.R = 0) :
    bufAccessOk p i p.R := by
  have hR := Ok_R h
  have hC := Ok_C_mod h
  rw [hR] at hal
  exact ⟨by rw [hR]; exact hal, rfl, by rw [hR]; omega⟩

/-- The record behind the advanced head is the one just written. -/
theorem prev_advance {p : Params} (h : p.Ok) {i : Nat} (hlt : i < p.C) (hal : i % p.R = 0) :
    prev p (advance p i p.R) = i := by
  have hR := Ok_R h
  have hC := Ok_C_mod h
  have hge := Ok_C_ge h
  rw [hR] at hal
  unfold prev advance
  rw [hR]
  split <;> split <;> omega

/-- Where a drain puts the tail. -/
theorem advance_available {p : Params} {hd t : Nat} (hh : hd < p.C) (ht : t < p.C) :
    advance p t (available p hd t) = if t ≤ hd then hd else 0 := by
  unfold advance available
  split <;> split <;> omega

/-! ### Records -/

theorem bufWrite_eq {s : State} {off n : Nat} (h : bufAccessOk s.cfg off n) (v : Timestamp) :
    bufWrite off n v s = some { s with buf := bufPut s.buf off (leBytes n v.toNat) } := if_pos h

theorem bufRead_eq {s : State} {off n : Nat} (h : bufAccessOk s.cfg off n) :
    bufRead off n s = some ((List.range n).map fun i => bufByte s (off + i)) := if_pos h

/-- A record that is listed reads back as its bytes. -/
theorem bufRead_of_recordIs {s : State} {off : Nat} {v : Timestamp} (h : bufAccessOk s.cfg off s.cfg.R)
    (hr : recordIs s off v) : bufRead off s.cfg.R s = some (leBytes s.cfg.R v.toNat) := by
  rw [bufRead_eq h]
  congr 1
  apply List.ext_getElem (by simp)
  intro i h1 h2
  simp only [List.length_map, List.length_range] at h1
  simp only [List.getElem_map, List.getElem_range, bufByte, hr i h1]
  rw [List.getElem?_eq_getElem h2]
  rfl

/-- A record just written is what its offset holds. -/
theorem recordIs_bufPut {s : State} {off : Nat} {v : Timestamp} :
    recordIs { s with buf := bufPut s.buf off (leBytes s.cfg.R v.toNat) } off v := by
  intro i hi
  simp only at hi ⊢
  rw [cellGet_bufPut, if_pos ⟨by omega, by simpa using hi⟩]
  congr 1
  omega

/-- `recordIs` depends on the buffer and the configuration alone. -/
theorem recordIs_congr {s t : State} (hb : t.buf = s.buf) (hc : t.cfg = s.cfg) {off : Nat} {v : Timestamp}
    (h : recordIs s off v) : recordIs t off v := by
  intro i hi
  rw [hb, hc]
  exact h i (by rwa [hc] at hi)

/-- In a good state that is ready and not empty, some event was admitted since INIT. -/
theorem Inv.valid_of_nonempty {s : State} (h : Inv s) (hl : s.life = .ready) (hne : s.head ≠ s.tail) :
    s.dblValid = true := by
  cases hv : s.dblValid with
  | true => rfl
  | false => have := h.unsetEmpty hl hv; omega

/-- In a good state that is ready and not empty, the record behind the head is `dbl_last`. -/
theorem Inv.bufRead_prev {s : State} (h : Inv s) (hl : s.life = .ready) (hne : s.head ≠ s.tail) :
    bufRead (prev s.cfg s.head) s.cfg.R s = some (leBytes 8 s.dblLast.toNat) := by
  have hR := Ok_R h.cfgOk
  have ha := prev_access h.cfgOk (h.headLt hl) (h.headAligned hl)
  rw [bufRead_of_recordIs ha (h.latest hl (h.valid_of_nonempty hl hne)), hR]

end Sys2Proof.Machine
end

