-- ==== Sys2Proof/Laws/Control.lean ====
section
/-! SUPPORT. The bytes of a ControlValue in host memory, said twice: as Operands.lean computes them and as Safety.lean places
them. The two agree in either byte order and for every `CTRL_W`. -/

namespace Sys2Proof.Machine

variable {p : Params}

theorem ctrlPlace_lt {i : Nat} (h : i < p.ctrlLen) : ctrlPlace p i < p.ctrlLen := by
  unfold ctrlPlace; split <;> omega

/-- What a copy-out writes is the bytes in their places. -/
theorem ctrlBytes_eq_inOrder (p : Params) (v : Nat) : ctrlBytes p v = ctrlInOrder p v := by
  have byte : ∀ i, BitVec.ofNat 8 (v / 256 ^ i) = BitVec.ofNat 8 (v >>> (8 * i)) := by
    intro i
    rw [Nat.shiftRight_eq_div_pow, pow_mul]
    rfl
  unfold ctrlBytes ctrlInOrder ctrlPlace
  cases p.hostEndian
  · apply List.ext_getElem (by simp)
    intro i _ _
    simp [leBytes_getElem, byte]
  · apply List.ext_getElem (by simp)
    intro i _ _
    simp [leBytes_getElem, byte]

/-- What a copy-in assembles is the ControlValue in host memory. -/
theorem ctrlAt_load (s : State) (arg : Nat) :
    ctrlAt s arg (ctrlOfBytes s.cfg (hmemLoad s.cfg s.hmem arg s.cfg.ctrlLen)) := by
  refine ⟨ctrlOfBytes_lt _ _, fun j hj => ?_⟩
  have hk : j / 8 < s.cfg.ctrlLen := by have := ctrlW_le s.cfg; omega
  have hp := ctrlPlace_lt hk
  have key : ∀ bytes : List Byte, bytes[j / 8]? = some (hmemByte s.cfg s.hmem (arg + ctrlPlace s.cfg (j / 8))) →
      (leNat bytes % 2 ^ s.cfg.ctrlW).testBit j =
        (hmemByte s.cfg s.hmem (arg + ctrlPlace s.cfg (j / 8))).getLsbD (j % 8) := by
    intro bytes hb
    rw [Nat.testBit_mod_two_pow, testBit_leNat, hb]
    simp [hj]
  unfold ctrlOfBytes
  revert key hp
  unfold ctrlPlace
  cases s.cfg.hostEndian <;> intro hp key <;> apply key
  · rw [List.getElem?_eq_getElem (by simpa using hk), hmemLoad_getElem]
  · rw [List.getElem?_reverse (by simpa using hk), hmemLoad_length, List.getElem?_eq_getElem (by simpa using hp),
      hmemLoad_getElem]

/-- A ControlValue in host memory is one value only. -/
theorem ctrlAt_unique {s : State} {arg v w : Nat} (hv : ctrlAt s arg v) (hw : ctrlAt s arg w) : v = w := by
  apply Nat.eq_of_testBit_eq
  intro j
  by_cases hj : j < s.cfg.ctrlW
  · rw [hv.2 j hj, hw.2 j hj]
  · have h := Nat.pow_le_pow_right (show 0 < 2 by norm_num) (Nat.le_of_not_lt hj)
    rw [Nat.testBit_lt_two_pow (hv.1.trans_le h), Nat.testBit_lt_two_pow (hw.1.trans_le h)]

end Sys2Proof.Machine
end

