-- ==== Sys2Proof/Laws/Encoding.lean ====
section
/-! SUPPORT. The laws of the request word, the command word and the decoder: each field reads back as what was put there,
and what each answer of the decoder says of the word. -/

namespace Sys2Proof

theorem extract_append_high {n m : Nat} (a : BitVec n) (b : BitVec m) : (a ++ b).extractLsb' m n = a := by
  apply BitVec.eq_of_toNat_eq
  have ha := a.isLt
  have hb := b.isLt
  rw [BitVec.extractLsb'_toNat, BitVec.toNat_append, ← Nat.shiftLeft_add_eq_or_of_lt hb, Nat.shiftRight_eq_div_pow,
    Nat.shiftLeft_eq, Nat.mul_comm, Nat.mul_add_div (Nat.two_pow_pos m), Nat.div_eq_of_lt hb, Nat.add_zero,
    Nat.mod_eq_of_lt ha]

theorem extract_append_low {n m : Nat} (a : BitVec n) (b : BitVec m) : (a ++ b).extractLsb' 0 m = b := by
  apply BitVec.eq_of_toNat_eq
  have hb := b.isLt
  rw [BitVec.extractLsb'_toNat, BitVec.toNat_append, ← Nat.shiftLeft_add_eq_or_of_lt hb, Nat.shiftRight_zero,
    Nat.shiftLeft_eq, Nat.mul_comm, Nat.mul_add_mod, Nat.mod_eq_of_lt hb]

/-- `OP` reads back (30_encoding R70). -/
@[simp] theorem op_reqWord (op : BitVec 4) (c : CmdWord) (len addr : Nat) :
    Request.op ⟨reqWord op c, len, addr⟩ = op := extract_append_high op c

/-- `CMD` reads back (30_encoding R70). -/
@[simp] theorem cmd_reqWord (op : BitVec 4) (c : CmdWord) (len addr : Nat) :
    Request.cmd ⟨reqWord op c, len, addr⟩ = c := extract_append_low op c

theorem lenField_lt (p : Params) (r : Request) : lenField p r < 2 ^ p.lenW := Nat.mod_lt _ (Nat.two_pow_pos _)

theorem addrField_lt (p : Params) (r : Request) : addrField p r < 2 ^ p.haddrW := Nat.mod_lt _ (Nat.two_pow_pos _)

theorem lenField_of_lt {p : Params} {len : Nat} (h : len < 2 ^ p.lenW) (w : ReqWord) (addr : Nat) :
    lenField p ⟨w, len, addr⟩ = len := Nat.mod_eq_of_lt h

theorem addrField_of_lt {p : Params} {addr : Nat} (h : addr < 2 ^ p.haddrW) (w : ReqWord) (len : Nat) :
    addrField p ⟨w, len, addr⟩ = addr := Nat.mod_eq_of_lt h

theorem decode_ctrl {p : Params} {r : Request} (h : r.op = 0x5#4) :
    decode p r = decodeCtrl p r.cmd (addrField p r) := by
  simp [decode, h]

theorem decode_reserved {p : Params} {r : Request} (h : 0x8#4 ≤ r.op) : decode p r = .reserved r.op := by
  have h : 8 ≤ r.op.toNat := h
  unfold decode
  iterate 8 rw [if_neg (by intro e; rw [e] at h; simp at h)]

/-- Where the decoder reads SET the word is `CMD_SET` (30_encoding R78). -/
theorem decodeCmd_set {p : Params} {c : CmdWord} (h : decodeCmd p c = .set) : c = cmdSet p := by
  unfold decodeCmd at h
  repeat' split at h
  all_goals first | assumption | cases h

/-- Where the decoder reads GET the word is `CMD_GET` (30_encoding R78). -/
theorem decodeCmd_get {p : Params} {c : CmdWord} (h : decodeCmd p c = .get) : c = cmdGet p := by
  unfold decodeCmd at h
  repeat' split at h
  all_goals first | assumption | cases h

/-- Where the decoder reads EXCHANGE the word is `CMD_EXCHANGE` (30_encoding R78). -/
theorem decodeCmd_exchange {p : Params} {c : CmdWord} (h : decodeCmd p c = .exchange) : c = cmdExchange p := by
  unfold decodeCmd at h
  repeat' split at h
  all_goals first | assumption | cases h

end Sys2Proof
end

