-- ==== Sys2Proof/Laws/Format.lean ====
section
/-! SUPPORT. The decimal line: its characters, its length and the number it reads back as. -/

namespace Sys2Proof.Machine

theorem asciiDigit_toNat {d : Nat} (h : d < 10) : (asciiDigit d).toNat = 0x30 + d := by
  rw [asciiDigit, BitVec.toNat_ofNat]; omega

theorem decimalValue_append (a b : List Byte) :
    decimalValue (a ++ b) = decimalValue a * 10 ^ b.length + decimalValue b := by
  induction a with
  | nil => simp [decimalValue]
  | cons c a ih => simp only [List.cons_append, decimalValue, ih, List.length_append, pow_add]; ring

theorem decimalValue_zeros (n : Nat) : decimalValue (List.replicate n 0x30#8) = 0 := by
  induction n with
  | zero => rfl
  | succ n ih => simp [List.replicate_succ, decimalValue, ih]

/-- What the digits collected so far mean once `v` is written before them. -/
theorem decimalValue_decimalAux {fuel v : Nat} (h : v < 10 ^ fuel) (acc : List Byte) :
    decimalValue (decimalAux fuel v acc) = v * 10 ^ acc.length + decimalValue acc := by
  induction fuel generalizing v acc with
  | zero => simp at h; simp [decimalAux, h]
  | succ fuel ih =>
    have hd := asciiDigit_toNat (Nat.mod_lt v (by norm_num : 0 < 10))
    unfold decimalAux
    split
    · next h0 =>
      have : v % 10 = v := by omega
      simp only [decimalValue, hd]
      rw [Nat.add_sub_cancel_left, this]
    · rw [ih (by rw [pow_succ] at h; omega)]
      simp only [decimalValue, hd, List.length_cons, pow_succ]
      rw [Nat.add_sub_cancel_left]
      conv_rhs => rw [← Nat.div_add_mod v 10]
      ring

/-- Every character written is a decimal digit. -/
theorem mem_decimalAux {fuel v : Nat} {acc : List Byte} {b : Byte} (h : b ∈ decimalAux fuel v acc) :
    isDigit b ∨ b ∈ acc := by
  have hd (v : Nat) : isDigit (asciiDigit (v % 10)) := by
    have := asciiDigit_toNat (Nat.mod_lt v (by norm_num : 0 < 10))
    unfold isDigit
    omega
  induction fuel generalizing v acc with
  | zero => exact .inr h
  | succ fuel ih =>
    unfold decimalAux at h
    split at h
    · rcases List.mem_cons.mp h with rfl | h
      · exact .inl (hd v)
      · exact .inr h
    · rcases ih h with h | h
      · exact .inl h
      · rcases List.mem_cons.mp h with rfl | h
        · exact .inl (hd v)
        · exact .inr h

/-- A number of at most `k` digits is written in at most `k` digits. -/
theorem length_decimalAux_le {fuel v k : Nat} (h : v < 10 ^ k) (hk : 0 < k) (acc : List Byte) :
    (decimalAux fuel v acc).length ≤ k + acc.length := by
  induction fuel generalizing v k acc with
  | zero => simp [decimalAux]
  | succ fuel ih =>
    unfold decimalAux
    split
    · simp; omega
    · next h0 =>
      obtain ⟨k, rfl⟩ : ∃ j, k = j + 1 := ⟨k - 1, by omega⟩
      have hk' : 0 < k := by
        rcases Nat.eq_zero_or_pos k with rfl | h'
        · simp at h; omega
        · exact h'
      have := ih (v := v / 10) (by rw [pow_succ] at h; omega) hk' (asciiDigit (v % 10) :: acc)
      simp only [List.length_cons] at this
      omega

/-- The leading digit of a positive number is not 0. -/
theorem head_decimalAux {fuel v : Nat} (hv : 0 < v) (h : v < 10 ^ fuel) (acc : List Byte) :
    (decimalAux fuel v acc).head? ≠ some 0x30#8 := by
  induction fuel generalizing v acc with
  | zero => simp at h; omega
  | succ fuel ih =>
    unfold decimalAux
    split
    · next h0 =>
      intro e
      have := congrArg BitVec.toNat (Option.some.inj e)
      rw [asciiDigit_toNat (Nat.mod_lt v (by norm_num))] at this
      simp at this
      omega
    · exact ih (by omega) (by rw [pow_succ] at h; omega) _

theorem length_decimalAux_pos {fuel : Nat} (v : Nat) (acc : List Byte) (h : 0 < fuel) :
    acc.length + 1 ≤ (decimalAux fuel v acc).length := by
  induction fuel generalizing v acc with
  | zero => omega
  | succ n ih =>
    simp only [decimalAux]
    split
    · simp
    · cases n with
      | zero => simp [decimalAux]
      | succ m =>
        have := ih (v / 10) (asciiDigit (v % 10) :: acc) (by omega)
        simp only [List.length_cons] at this
        omega

/-- A number is below the power of ten of its digit count. -/
theorem lt_pow_length_decimalAux {fuel v : Nat} (acc : List Byte) (h : v < 10 ^ fuel) (hv : 0 < v) :
    v < 10 ^ ((decimalAux fuel v acc).length - acc.length) := by
  induction fuel generalizing v acc with
  | zero => simp at h; omega
  | succ n ih =>
    simp only [decimalAux]
    split
    · simp; omega
    · next hq =>
      have hn : 0 < n := by
        by_contra hc
        obtain rfl : n = 0 := by omega
        simp at h; omega
      have h2 := ih (v := v / 10) (asciiDigit (v % 10) :: acc) (by rw [pow_succ] at h; omega) (by omega)
      have h3 := length_decimalAux_pos (v / 10) (asciiDigit (v % 10) :: acc) hn
      simp only [List.length_cons] at h2 h3
      rw [show (decimalAux n (v / 10) (asciiDigit (v % 10) :: acc)).length - acc.length =
        (decimalAux n (v / 10) (asciiDigit (v % 10) :: acc)).length - (acc.length + 1) + 1 by omega, pow_succ]
      omega

theorem timestamp_lt (v : Timestamp) : v.toNat < 10 ^ 20 := by
  have := v.isLt; norm_num at *; omega

theorem fmt_eq (p : Params) (v : Timestamp) :
    fmt p v = (List.replicate (p.fmtDigits - (decimal v).length) 0x30#8 ++ decimal v) ++ [0x0A#8] := by
  unfold fmt; split; simp

theorem fmt_length (p : Params) (v : Timestamp) :
    (fmt p v).length = max p.fmtDigits (decimal v).length + 1 := by
  rw [fmt_eq]; simp; omega

theorem decimal_length_le (v : Timestamp) : (decimal v).length ≤ 20 := by
  have := length_decimalAux_le (fuel := 20) (timestamp_lt v) (by norm_num) []
  simpa [decimal] using this

end Sys2Proof.Machine
end

