-- ==== Sys2Proof/Laws/State.lean ====
section
/-! SUPPORT. What each named update of the state does to each field: one lemma for each field of each update, so that no
later proof unfolds a record update. -/

namespace Sys2Proof.Machine

/-! ### respond -/

@[simp] theorem respond_life (k : ReqKind) (st : Status) (v : BitVec 64) (s : State) : (respond k st v s).life = s.life := rfl
@[simp] theorem respond_buf (k : ReqKind) (st : Status) (v : BitVec 64) (s : State) : (respond k st v s).buf = s.buf := rfl
@[simp] theorem respond_head (k : ReqKind) (st : Status) (v : BitVec 64) (s : State) : (respond k st v s).head = s.head := rfl
@[simp] theorem respond_tail (k : ReqKind) (st : Status) (v : BitVec 64) (s : State) : (respond k st v s).tail = s.tail := rfl
@[simp] theorem respond_dblLast (k : ReqKind) (st : Status) (v : BitVec 64) (s : State) : (respond k st v s).dblLast = s.dblLast := rfl
@[simp] theorem respond_dblValid (k : ReqKind) (st : Status) (v : BitVec 64) (s : State) : (respond k st v s).dblValid = s.dblValid := rfl
@[simp] theorem respond_irqPending (k : ReqKind) (st : Status) (v : BitVec 64) (s : State) : (respond k st v s).irqPending = s.irqPending := rfl
@[simp] theorem respond_rdState (k : ReqKind) (st : Status) (v : BitVec 64) (s : State) : (respond k st v s).rdState = s.rdState := rfl
@[simp] theorem respond_rdLen (k : ReqKind) (st : Status) (v : BitVec 64) (s : State) : (respond k st v s).rdLen = s.rdLen := rfl
@[simp] theorem respond_rdAddr (k : ReqKind) (st : Status) (v : BitVec 64) (s : State) : (respond k st v s).rdAddr = s.rdAddr := rfl
@[simp] theorem respond_ctrlValue (k : ReqKind) (st : Status) (v : BitVec 64) (s : State) : (respond k st v s).ctrlValue = s.ctrlValue := rfl
@[simp] theorem respond_msg (k : ReqKind) (st : Status) (v : BitVec 64) (s : State) : (respond k st v s).msg = s.msg := rfl
@[simp] theorem respond_msgLen (k : ReqKind) (st : Status) (v : BitVec 64) (s : State) : (respond k st v s).msgLen = s.msgLen := rfl
@[simp] theorem respond_ticks (k : ReqKind) (st : Status) (v : BitVec 64) (s : State) : (respond k st v s).ticks = s.ticks := rfl
@[simp] theorem respond_refused (k : ReqKind) (st : Status) (v : BitVec 64) (s : State) : (respond k st v s).refused = s.refused := rfl
@[simp] theorem respond_hmem (k : ReqKind) (st : Status) (v : BitVec 64) (s : State) : (respond k st v s).hmem = s.hmem := rfl
@[simp] theorem respond_cfg (k : ReqKind) (st : Status) (v : BitVec 64) (s : State) : (respond k st v s).cfg = s.cfg := rfl
@[simp] theorem respond_moves (k : ReqKind) (st : Status) (v : BitVec 64) (s : State) : (respond k st v s).moves = s.moves := rfl
@[simp] theorem respond_draws (k : ReqKind) (st : Status) (v : BitVec 64) (s : State) : (respond k st v s).draws = s.draws := rfl
@[simp] theorem respond_responses (k : ReqKind) (st : Status) (v : BitVec 64) (s : State) : (respond k st v s).responses = s.responses ++ [⟨k, st, v⟩] := rfl
@[simp] theorem respond_freeCtr (k : ReqKind) (st : Status) (v : BitVec 64) (s : State) : (respond k st v s).freeCtr = s.freeCtr := rfl
@[simp] theorem respond_bufGen (k : ReqKind) (st : Status) (v : BitVec 64) (s : State) : (respond k st v s).bufGen = s.bufGen := rfl

/-! ### refuse -/

@[simp] theorem refuse_life (s : State) : (refuse s).life = s.life := rfl
@[simp] theorem refuse_buf (s : State) : (refuse s).buf = s.buf := rfl
@[simp] theorem refuse_head (s : State) : (refuse s).head = s.head := rfl
@[simp] theorem refuse_tail (s : State) : (refuse s).tail = s.tail := rfl
@[simp] theorem refuse_dblLast (s : State) : (refuse s).dblLast = s.dblLast := rfl
@[simp] theorem refuse_dblValid (s : State) : (refuse s).dblValid = s.dblValid := rfl
@[simp] theorem refuse_irqPending (s : State) : (refuse s).irqPending = s.irqPending := rfl
@[simp] theorem refuse_rdState (s : State) : (refuse s).rdState = s.rdState := rfl
@[simp] theorem refuse_rdLen (s : State) : (refuse s).rdLen = s.rdLen := rfl
@[simp] theorem refuse_rdAddr (s : State) : (refuse s).rdAddr = s.rdAddr := rfl
@[simp] theorem refuse_ctrlValue (s : State) : (refuse s).ctrlValue = s.ctrlValue := rfl
@[simp] theorem refuse_msg (s : State) : (refuse s).msg = s.msg := rfl
@[simp] theorem refuse_msgLen (s : State) : (refuse s).msgLen = s.msgLen := rfl
@[simp] theorem refuse_ticks (s : State) : (refuse s).ticks = s.ticks := rfl
@[simp] theorem refuse_refused (s : State) : (refuse s).refused = true := rfl
@[simp] theorem refuse_hmem (s : State) : (refuse s).hmem = s.hmem := rfl
@[simp] theorem refuse_cfg (s : State) : (refuse s).cfg = s.cfg := rfl
@[simp] theorem refuse_moves (s : State) : (refuse s).moves = s.moves := rfl
@[simp] theorem refuse_draws (s : State) : (refuse s).draws = s.draws := rfl
@[simp] theorem refuse_responses (s : State) : (refuse s).responses = s.responses := rfl
@[simp] theorem refuse_freeCtr (s : State) : (refuse s).freeCtr = s.freeCtr := rfl
@[simp] theorem refuse_bufGen (s : State) : (refuse s).bufGen = s.bufGen := rfl

/-! ### acceptEvent -/

@[simp] theorem acceptEvent_life (now : Timestamp) (s : State) : (acceptEvent now s).life = s.life := rfl
@[simp] theorem acceptEvent_buf (now : Timestamp) (s : State) : (acceptEvent now s).buf = s.buf := rfl
@[simp] theorem acceptEvent_head (now : Timestamp) (s : State) : (acceptEvent now s).head = s.head := rfl
@[simp] theorem acceptEvent_tail (now : Timestamp) (s : State) : (acceptEvent now s).tail = s.tail := rfl
@[simp] theorem acceptEvent_dblLast (now : Timestamp) (s : State) : (acceptEvent now s).dblLast = now := rfl
@[simp] theorem acceptEvent_dblValid (now : Timestamp) (s : State) : (acceptEvent now s).dblValid = true := rfl
@[simp] theorem acceptEvent_irqPending (now : Timestamp) (s : State) : (acceptEvent now s).irqPending = s.irqPending := rfl
@[simp] theorem acceptEvent_rdState (now : Timestamp) (s : State) : (acceptEvent now s).rdState = s.rdState := rfl
@[simp] theorem acceptEvent_rdLen (now : Timestamp) (s : State) : (acceptEvent now s).rdLen = s.rdLen := rfl
@[simp] theorem acceptEvent_rdAddr (now : Timestamp) (s : State) : (acceptEvent now s).rdAddr = s.rdAddr := rfl
@[simp] theorem acceptEvent_ctrlValue (now : Timestamp) (s : State) : (acceptEvent now s).ctrlValue = s.ctrlValue := rfl
@[simp] theorem acceptEvent_msg (now : Timestamp) (s : State) : (acceptEvent now s).msg = s.msg := rfl
@[simp] theorem acceptEvent_msgLen (now : Timestamp) (s : State) : (acceptEvent now s).msgLen = s.msgLen := rfl
@[simp] theorem acceptEvent_ticks (now : Timestamp) (s : State) : (acceptEvent now s).ticks = s.ticks := rfl
@[simp] theorem acceptEvent_refused (now : Timestamp) (s : State) : (acceptEvent now s).refused = s.refused := rfl
@[simp] theorem acceptEvent_hmem (now : Timestamp) (s : State) : (acceptEvent now s).hmem = s.hmem := rfl
@[simp] theorem acceptEvent_cfg (now : Timestamp) (s : State) : (acceptEvent now s).cfg = s.cfg := rfl
@[simp] theorem acceptEvent_moves (now : Timestamp) (s : State) : (acceptEvent now s).moves = s.moves := rfl
@[simp] theorem acceptEvent_draws (now : Timestamp) (s : State) : (acceptEvent now s).draws = s.draws := rfl
@[simp] theorem acceptEvent_responses (now : Timestamp) (s : State) : (acceptEvent now s).responses = s.responses := rfl
@[simp] theorem acceptEvent_freeCtr (now : Timestamp) (s : State) : (acceptEvent now s).freeCtr = s.freeCtr := rfl
@[simp] theorem acceptEvent_bufGen (now : Timestamp) (s : State) : (acceptEvent now s).bufGen = s.bufGen := rfl

/-! ### latchEdge -/

@[simp] theorem latchEdge_life (s : State) : (latchEdge s).life = s.life := rfl
@[simp] theorem latchEdge_buf (s : State) : (latchEdge s).buf = s.buf := rfl
@[simp] theorem latchEdge_head (s : State) : (latchEdge s).head = s.head := rfl
@[simp] theorem latchEdge_tail (s : State) : (latchEdge s).tail = s.tail := rfl
@[simp] theorem latchEdge_dblLast (s : State) : (latchEdge s).dblLast = s.dblLast := rfl
@[simp] theorem latchEdge_dblValid (s : State) : (latchEdge s).dblValid = s.dblValid := rfl
@[simp] theorem latchEdge_irqPending (s : State) : (latchEdge s).irqPending = true := rfl
@[simp] theorem latchEdge_rdState (s : State) : (latchEdge s).rdState = s.rdState := rfl
@[simp] theorem latchEdge_rdLen (s : State) : (latchEdge s).rdLen = s.rdLen := rfl
@[simp] theorem latchEdge_rdAddr (s : State) : (latchEdge s).rdAddr = s.rdAddr := rfl
@[simp] theorem latchEdge_ctrlValue (s : State) : (latchEdge s).ctrlValue = s.ctrlValue := rfl
@[simp] theorem latchEdge_msg (s : State) : (latchEdge s).msg = s.msg := rfl
@[simp] theorem latchEdge_msgLen (s : State) : (latchEdge s).msgLen = s.msgLen := rfl
@[simp] theorem latchEdge_ticks (s : State) : (latchEdge s).ticks = s.ticks := rfl
@[simp] theorem latchEdge_refused (s : State) : (latchEdge s).refused = s.refused := rfl
@[simp] theorem latchEdge_hmem (s : State) : (latchEdge s).hmem = s.hmem := rfl
@[simp] theorem latchEdge_cfg (s : State) : (latchEdge s).cfg = s.cfg := rfl
@[simp] theorem latchEdge_moves (s : State) : (latchEdge s).moves = s.moves := rfl
@[simp] theorem latchEdge_draws (s : State) : (latchEdge s).draws = s.draws := rfl
@[simp] theorem latchEdge_responses (s : State) : (latchEdge s).responses = s.responses := rfl
@[simp] theorem latchEdge_freeCtr (s : State) : (latchEdge s).freeCtr = s.freeCtr := rfl
@[simp] theorem latchEdge_bufGen (s : State) : (latchEdge s).bufGen = s.bufGen := rfl

/-! ### clearEdge -/

@[simp] theorem clearEdge_life (s : State) : (clearEdge s).life = s.life := rfl
@[simp] theorem clearEdge_buf (s : State) : (clearEdge s).buf = s.buf := rfl
@[simp] theorem clearEdge_head (s : State) : (clearEdge s).head = s.head := rfl
@[simp] theorem clearEdge_tail (s : State) : (clearEdge s).tail = s.tail := rfl
@[simp] theorem clearEdge_dblLast (s : State) : (clearEdge s).dblLast = s.dblLast := rfl
@[simp] theorem clearEdge_dblValid (s : State) : (clearEdge s).dblValid = s.dblValid := rfl
@[simp] theorem clearEdge_irqPending (s : State) : (clearEdge s).irqPending = false := rfl
@[simp] theorem clearEdge_rdState (s : State) : (clearEdge s).rdState = s.rdState := rfl
@[simp] theorem clearEdge_rdLen (s : State) : (clearEdge s).rdLen = s.rdLen := rfl
@[simp] theorem clearEdge_rdAddr (s : State) : (clearEdge s).rdAddr = s.rdAddr := rfl
@[simp] theorem clearEdge_ctrlValue (s : State) : (clearEdge s).ctrlValue = s.ctrlValue := rfl
@[simp] theorem clearEdge_msg (s : State) : (clearEdge s).msg = s.msg := rfl
@[simp] theorem clearEdge_msgLen (s : State) : (clearEdge s).msgLen = s.msgLen := rfl
@[simp] theorem clearEdge_ticks (s : State) : (clearEdge s).ticks = s.ticks := rfl
@[simp] theorem clearEdge_refused (s : State) : (clearEdge s).refused = s.refused := rfl
@[simp] theorem clearEdge_hmem (s : State) : (clearEdge s).hmem = s.hmem := rfl
@[simp] theorem clearEdge_cfg (s : State) : (clearEdge s).cfg = s.cfg := rfl
@[simp] theorem clearEdge_moves (s : State) : (clearEdge s).moves = s.moves := rfl
@[simp] theorem clearEdge_draws (s : State) : (clearEdge s).draws = s.draws := rfl
@[simp] theorem clearEdge_responses (s : State) : (clearEdge s).responses = s.responses := rfl
@[simp] theorem clearEdge_freeCtr (s : State) : (clearEdge s).freeCtr = s.freeCtr := rfl
@[simp] theorem clearEdge_bufGen (s : State) : (clearEdge s).bufGen = s.bufGen := rfl

/-! ### joinWaitSet -/

@[simp] theorem joinWaitSet_life (n dst : Nat) (s : State) : (joinWaitSet n dst s).life = s.life := rfl
@[simp] theorem joinWaitSet_buf (n dst : Nat) (s : State) : (joinWaitSet n dst s).buf = s.buf := rfl
@[simp] theorem joinWaitSet_head (n dst : Nat) (s : State) : (joinWaitSet n dst s).head = s.head := rfl
@[simp] theorem joinWaitSet_tail (n dst : Nat) (s : State) : (joinWaitSet n dst s).tail = s.tail := rfl
@[simp] theorem joinWaitSet_dblLast (n dst : Nat) (s : State) : (joinWaitSet n dst s).dblLast = s.dblLast := rfl
@[simp] theorem joinWaitSet_dblValid (n dst : Nat) (s : State) : (joinWaitSet n dst s).dblValid = s.dblValid := rfl
@[simp] theorem joinWaitSet_irqPending (n dst : Nat) (s : State) : (joinWaitSet n dst s).irqPending = s.irqPending := rfl
@[simp] theorem joinWaitSet_rdState (n dst : Nat) (s : State) : (joinWaitSet n dst s).rdState = .wait := rfl
@[simp] theorem joinWaitSet_rdLen (n dst : Nat) (s : State) : (joinWaitSet n dst s).rdLen = n := rfl
@[simp] theorem joinWaitSet_rdAddr (n dst : Nat) (s : State) : (joinWaitSet n dst s).rdAddr = dst := rfl
@[simp] theorem joinWaitSet_ctrlValue (n dst : Nat) (s : State) : (joinWaitSet n dst s).ctrlValue = s.ctrlValue := rfl
@[simp] theorem joinWaitSet_msg (n dst : Nat) (s : State) : (joinWaitSet n dst s).msg = s.msg := rfl
@[simp] theorem joinWaitSet_msgLen (n dst : Nat) (s : State) : (joinWaitSet n dst s).msgLen = s.msgLen := rfl
@[simp] theorem joinWaitSet_ticks (n dst : Nat) (s : State) : (joinWaitSet n dst s).ticks = s.ticks := rfl
@[simp] theorem joinWaitSet_refused (n dst : Nat) (s : State) : (joinWaitSet n dst s).refused = s.refused := rfl
@[simp] theorem joinWaitSet_hmem (n dst : Nat) (s : State) : (joinWaitSet n dst s).hmem = s.hmem := rfl
@[simp] theorem joinWaitSet_cfg (n dst : Nat) (s : State) : (joinWaitSet n dst s).cfg = s.cfg := rfl
@[simp] theorem joinWaitSet_moves (n dst : Nat) (s : State) : (joinWaitSet n dst s).moves = s.moves := rfl
@[simp] theorem joinWaitSet_draws (n dst : Nat) (s : State) : (joinWaitSet n dst s).draws = s.draws := rfl
@[simp] theorem joinWaitSet_responses (n dst : Nat) (s : State) : (joinWaitSet n dst s).responses = s.responses := rfl
@[simp] theorem joinWaitSet_freeCtr (n dst : Nat) (s : State) : (joinWaitSet n dst s).freeCtr = s.freeCtr := rfl
@[simp] theorem joinWaitSet_bufGen (n dst : Nat) (s : State) : (joinWaitSet n dst s).bufGen = s.bufGen := rfl

/-! ### dropReadOperands -/

@[simp] theorem dropReadOperands_life (s : State) : (dropReadOperands s).life = s.life := rfl
@[simp] theorem dropReadOperands_buf (s : State) : (dropReadOperands s).buf = s.buf := rfl
@[simp] theorem dropReadOperands_head (s : State) : (dropReadOperands s).head = s.head := rfl
@[simp] theorem dropReadOperands_tail (s : State) : (dropReadOperands s).tail = s.tail := rfl
@[simp] theorem dropReadOperands_dblLast (s : State) : (dropReadOperands s).dblLast = s.dblLast := rfl
@[simp] theorem dropReadOperands_dblValid (s : State) : (dropReadOperands s).dblValid = s.dblValid := rfl
@[simp] theorem dropReadOperands_irqPending (s : State) : (dropReadOperands s).irqPending = s.irqPending := rfl
@[simp] theorem dropReadOperands_rdState (s : State) : (dropReadOperands s).rdState = s.rdState := rfl
@[simp] theorem dropReadOperands_rdLen (s : State) : (dropReadOperands s).rdLen = Config.idleRdLen s.freeCtr % 2 ^ s.cfg.lenW := rfl
@[simp] theorem dropReadOperands_rdAddr (s : State) : (dropReadOperands s).rdAddr = Config.idleRdAddr s.freeCtr % 2 ^ s.cfg.haddrW := rfl
@[simp] theorem dropReadOperands_ctrlValue (s : State) : (dropReadOperands s).ctrlValue = s.ctrlValue := rfl
@[simp] theorem dropReadOperands_msg (s : State) : (dropReadOperands s).msg = s.msg := rfl
@[simp] theorem dropReadOperands_msgLen (s : State) : (dropReadOperands s).msgLen = s.msgLen := rfl
@[simp] theorem dropReadOperands_ticks (s : State) : (dropReadOperands s).ticks = s.ticks := rfl
@[simp] theorem dropReadOperands_refused (s : State) : (dropReadOperands s).refused = s.refused := rfl
@[simp] theorem dropReadOperands_hmem (s : State) : (dropReadOperands s).hmem = s.hmem := rfl
@[simp] theorem dropReadOperands_cfg (s : State) : (dropReadOperands s).cfg = s.cfg := rfl
@[simp] theorem dropReadOperands_moves (s : State) : (dropReadOperands s).moves = s.moves := rfl
@[simp] theorem dropReadOperands_draws (s : State) : (dropReadOperands s).draws = s.draws := rfl
@[simp] theorem dropReadOperands_responses (s : State) : (dropReadOperands s).responses = s.responses := rfl
@[simp] theorem dropReadOperands_freeCtr (s : State) : (dropReadOperands s).freeCtr = s.freeCtr + 1 := rfl
@[simp] theorem dropReadOperands_bufGen (s : State) : (dropReadOperands s).bufGen = s.bufGen := rfl

/-! ### hostWritten -/

@[simp] theorem hostWritten_life (addr : Nat) (bytes : List Byte) (s : State) : (hostWritten addr bytes s).life = s.life := rfl
@[simp] theorem hostWritten_buf (addr : Nat) (bytes : List Byte) (s : State) : (hostWritten addr bytes s).buf = s.buf := rfl
@[simp] theorem hostWritten_head (addr : Nat) (bytes : List Byte) (s : State) : (hostWritten addr bytes s).head = s.head := rfl
@[simp] theorem hostWritten_tail (addr : Nat) (bytes : List Byte) (s : State) : (hostWritten addr bytes s).tail = s.tail := rfl
@[simp] theorem hostWritten_dblLast (addr : Nat) (bytes : List Byte) (s : State) : (hostWritten addr bytes s).dblLast = s.dblLast := rfl
@[simp] theorem hostWritten_dblValid (addr : Nat) (bytes : List Byte) (s : State) : (hostWritten addr bytes s).dblValid = s.dblValid := rfl
@[simp] theorem hostWritten_irqPending (addr : Nat) (bytes : List Byte) (s : State) : (hostWritten addr bytes s).irqPending = s.irqPending := rfl
@[simp] theorem hostWritten_rdState (addr : Nat) (bytes : List Byte) (s : State) : (hostWritten addr bytes s).rdState = s.rdState := rfl
@[simp] theorem hostWritten_rdLen (addr : Nat) (bytes : List Byte) (s : State) : (hostWritten addr bytes s).rdLen = s.rdLen := rfl
@[simp] theorem hostWritten_rdAddr (addr : Nat) (bytes : List Byte) (s : State) : (hostWritten addr bytes s).rdAddr = s.rdAddr := rfl
@[simp] theorem hostWritten_ctrlValue (addr : Nat) (bytes : List Byte) (s : State) : (hostWritten addr bytes s).ctrlValue = s.ctrlValue := rfl
@[simp] theorem hostWritten_msg (addr : Nat) (bytes : List Byte) (s : State) : (hostWritten addr bytes s).msg = s.msg := rfl
@[simp] theorem hostWritten_msgLen (addr : Nat) (bytes : List Byte) (s : State) : (hostWritten addr bytes s).msgLen = s.msgLen := rfl
@[simp] theorem hostWritten_ticks (addr : Nat) (bytes : List Byte) (s : State) : (hostWritten addr bytes s).ticks = s.ticks := rfl
@[simp] theorem hostWritten_refused (addr : Nat) (bytes : List Byte) (s : State) : (hostWritten addr bytes s).refused = s.refused := rfl
@[simp] theorem hostWritten_hmem (addr : Nat) (bytes : List Byte) (s : State) : (hostWritten addr bytes s).hmem = hmemStore s.cfg s.hmem addr bytes := rfl
@[simp] theorem hostWritten_cfg (addr : Nat) (bytes : List Byte) (s : State) : (hostWritten addr bytes s).cfg = s.cfg := rfl
@[simp] theorem hostWritten_moves (addr : Nat) (bytes : List Byte) (s : State) : (hostWritten addr bytes s).moves = s.moves := rfl
@[simp] theorem hostWritten_draws (addr : Nat) (bytes : List Byte) (s : State) : (hostWritten addr bytes s).draws = s.draws := rfl
@[simp] theorem hostWritten_responses (addr : Nat) (bytes : List Byte) (s : State) : (hostWritten addr bytes s).responses = s.responses := rfl
@[simp] theorem hostWritten_freeCtr (addr : Nat) (bytes : List Byte) (s : State) : (hostWritten addr bytes s).freeCtr = s.freeCtr := rfl
@[simp] theorem hostWritten_bufGen (addr : Nat) (bytes : List Byte) (s : State) : (hostWritten addr bytes s).bufGen = s.bufGen := rfl

/-! ### hostFaulted -/

@[simp] theorem hostFaulted_life (addr : Nat) (bytes : List Byte) (s : State) : (hostFaulted addr bytes s).life = s.life := rfl
@[simp] theorem hostFaulted_buf (addr : Nat) (bytes : List Byte) (s : State) : (hostFaulted addr bytes s).buf = s.buf := rfl
@[simp] theorem hostFaulted_head (addr : Nat) (bytes : List Byte) (s : State) : (hostFaulted addr bytes s).head = s.head := rfl
@[simp] theorem hostFaulted_tail (addr : Nat) (bytes : List Byte) (s : State) : (hostFaulted addr bytes s).tail = s.tail := rfl
@[simp] theorem hostFaulted_dblLast (addr : Nat) (bytes : List Byte) (s : State) : (hostFaulted addr bytes s).dblLast = s.dblLast := rfl
@[simp] theorem hostFaulted_dblValid (addr : Nat) (bytes : List Byte) (s : State) : (hostFaulted addr bytes s).dblValid = s.dblValid := rfl
@[simp] theorem hostFaulted_irqPending (addr : Nat) (bytes : List Byte) (s : State) : (hostFaulted addr bytes s).irqPending = s.irqPending := rfl
@[simp] theorem hostFaulted_rdState (addr : Nat) (bytes : List Byte) (s : State) : (hostFaulted addr bytes s).rdState = s.rdState := rfl
@[simp] theorem hostFaulted_rdLen (addr : Nat) (bytes : List Byte) (s : State) : (hostFaulted addr bytes s).rdLen = s.rdLen := rfl
@[simp] theorem hostFaulted_rdAddr (addr : Nat) (bytes : List Byte) (s : State) : (hostFaulted addr bytes s).rdAddr = s.rdAddr := rfl
@[simp] theorem hostFaulted_ctrlValue (addr : Nat) (bytes : List Byte) (s : State) : (hostFaulted addr bytes s).ctrlValue = s.ctrlValue := rfl
@[simp] theorem hostFaulted_msg (addr : Nat) (bytes : List Byte) (s : State) : (hostFaulted addr bytes s).msg = s.msg := rfl
@[simp] theorem hostFaulted_msgLen (addr : Nat) (bytes : List Byte) (s : State) : (hostFaulted addr bytes s).msgLen = s.msgLen := rfl
@[simp] theorem hostFaulted_ticks (addr : Nat) (bytes : List Byte) (s : State) : (hostFaulted addr bytes s).ticks = s.ticks := rfl
@[simp] theorem hostFaulted_refused (addr : Nat) (bytes : List Byte) (s : State) : (hostFaulted addr bytes s).refused = s.refused := rfl
@[simp] theorem hostFaulted_hmem (addr : Nat) (bytes : List Byte) (s : State) : (hostFaulted addr bytes s).hmem = hmemStore s.cfg s.hmem addr (faultedBytes bytes.length s) := rfl
@[simp] theorem hostFaulted_cfg (addr : Nat) (bytes : List Byte) (s : State) : (hostFaulted addr bytes s).cfg = s.cfg := rfl
@[simp] theorem hostFaulted_moves (addr : Nat) (bytes : List Byte) (s : State) : (hostFaulted addr bytes s).moves = s.moves := rfl
@[simp] theorem hostFaulted_draws (addr : Nat) (bytes : List Byte) (s : State) : (hostFaulted addr bytes s).draws = s.draws := rfl
@[simp] theorem hostFaulted_responses (addr : Nat) (bytes : List Byte) (s : State) : (hostFaulted addr bytes s).responses = s.responses := rfl
@[simp] theorem hostFaulted_freeCtr (addr : Nat) (bytes : List Byte) (s : State) : (hostFaulted addr bytes s).freeCtr = s.freeCtr + 1 := rfl
@[simp] theorem hostFaulted_bufGen (addr : Nat) (bytes : List Byte) (s : State) : (hostFaulted addr bytes s).bufGen = s.bufGen := rfl

/-! ### drain -/

@[simp] theorem drain_life (s : State) : (drain s).life = s.life := rfl
@[simp] theorem drain_buf (s : State) : (drain s).buf = s.buf := rfl
@[simp] theorem drain_head (s : State) : (drain s).head = s.head := rfl
@[simp] theorem drain_tail (s : State) : (drain s).tail = advance s.cfg s.tail (available s.cfg s.head s.tail) := rfl
@[simp] theorem drain_dblLast (s : State) : (drain s).dblLast = s.dblLast := rfl
@[simp] theorem drain_dblValid (s : State) : (drain s).dblValid = s.dblValid := rfl
@[simp] theorem drain_irqPending (s : State) : (drain s).irqPending = s.irqPending := rfl
@[simp] theorem drain_rdState (s : State) : (drain s).rdState = s.rdState := rfl
@[simp] theorem drain_rdLen (s : State) : (drain s).rdLen = s.rdLen := rfl
@[simp] theorem drain_rdAddr (s : State) : (drain s).rdAddr = s.rdAddr := rfl
@[simp] theorem drain_ctrlValue (s : State) : (drain s).ctrlValue = s.ctrlValue := rfl
@[simp] theorem drain_msg (s : State) : (drain s).msg = s.msg := rfl
@[simp] theorem drain_msgLen (s : State) : (drain s).msgLen = s.msgLen := rfl
@[simp] theorem drain_ticks (s : State) : (drain s).ticks = s.ticks := rfl
@[simp] theorem drain_refused (s : State) : (drain s).refused = s.refused := rfl
@[simp] theorem drain_hmem (s : State) : (drain s).hmem = s.hmem := rfl
@[simp] theorem drain_cfg (s : State) : (drain s).cfg = s.cfg := rfl
@[simp] theorem drain_moves (s : State) : (drain s).moves = s.moves := rfl
@[simp] theorem drain_draws (s : State) : (drain s).draws = s.draws := rfl
@[simp] theorem drain_responses (s : State) : (drain s).responses = s.responses := rfl
@[simp] theorem drain_freeCtr (s : State) : (drain s).freeCtr = s.freeCtr := rfl
@[simp] theorem drain_bufGen (s : State) : (drain s).bufGen = s.bufGen := rfl

/-! ### initialise -/

@[simp] theorem initialise_life (s : State) : (initialise s).life = .ready := rfl
@[simp] theorem initialise_buf (s : State) : (initialise s).buf = [] := rfl
@[simp] theorem initialise_head (s : State) : (initialise s).head = 0 := rfl
@[simp] theorem initialise_tail (s : State) : (initialise s).tail = 0 := rfl
@[simp] theorem initialise_dblLast (s : State) : (initialise s).dblLast = Config.unsetDblLast s.freeCtr := rfl
@[simp] theorem initialise_dblValid (s : State) : (initialise s).dblValid = false := rfl
@[simp] theorem initialise_irqPending (s : State) : (initialise s).irqPending = false := rfl
@[simp] theorem initialise_rdState (s : State) : (initialise s).rdState = .idle := rfl
@[simp] theorem initialise_rdLen (s : State) : (initialise s).rdLen = Config.idleRdLen s.freeCtr % 2 ^ s.cfg.lenW := rfl
@[simp] theorem initialise_rdAddr (s : State) : (initialise s).rdAddr = Config.idleRdAddr s.freeCtr % 2 ^ s.cfg.haddrW := rfl
@[simp] theorem initialise_ctrlValue (s : State) : (initialise s).ctrlValue = 0 := rfl
@[simp] theorem initialise_msg (s : State) : (initialise s).msg = List.replicate s.cfg.msgMax 0 := rfl
@[simp] theorem initialise_msgLen (s : State) : (initialise s).msgLen = 0 := rfl
@[simp] theorem initialise_ticks (s : State) : (initialise s).ticks = s.ticks := rfl
@[simp] theorem initialise_refused (s : State) : (initialise s).refused = s.refused := rfl
@[simp] theorem initialise_hmem (s : State) : (initialise s).hmem = s.hmem := rfl
@[simp] theorem initialise_cfg (s : State) : (initialise s).cfg = s.cfg := rfl
@[simp] theorem initialise_moves (s : State) : (initialise s).moves = s.moves := rfl
@[simp] theorem initialise_draws (s : State) : (initialise s).draws = s.draws := rfl
@[simp] theorem initialise_responses (s : State) : (initialise s).responses = s.responses := rfl
@[simp] theorem initialise_freeCtr (s : State) : (initialise s).freeCtr = s.freeCtr + 1 := rfl
@[simp] theorem initialise_bufGen (s : State) : (initialise s).bufGen = s.freeCtr := rfl

/-! ### forget -/

@[simp] theorem forget_life (s : State) : (forget s).life = s.life := rfl
@[simp] theorem forget_buf (s : State) : (forget s).buf = [] := rfl
@[simp] theorem forget_head (s : State) : (forget s).head = 0 := rfl
@[simp] theorem forget_tail (s : State) : (forget s).tail = 0 := rfl
@[simp] theorem forget_dblLast (s : State) : (forget s).dblLast = 0 := rfl
@[simp] theorem forget_dblValid (s : State) : (forget s).dblValid = false := rfl
@[simp] theorem forget_irqPending (s : State) : (forget s).irqPending = s.irqPending := rfl
@[simp] theorem forget_rdState (s : State) : (forget s).rdState = s.rdState := rfl
@[simp] theorem forget_rdLen (s : State) : (forget s).rdLen = s.rdLen := rfl
@[simp] theorem forget_rdAddr (s : State) : (forget s).rdAddr = s.rdAddr := rfl
@[simp] theorem forget_ctrlValue (s : State) : (forget s).ctrlValue = 0 := rfl
@[simp] theorem forget_msg (s : State) : (forget s).msg = List.replicate s.cfg.msgMax 0 := rfl
@[simp] theorem forget_msgLen (s : State) : (forget s).msgLen = 0 := rfl
@[simp] theorem forget_ticks (s : State) : (forget s).ticks = s.ticks := rfl
@[simp] theorem forget_refused (s : State) : (forget s).refused = s.refused := rfl
@[simp] theorem forget_hmem (s : State) : (forget s).hmem = s.hmem := rfl
@[simp] theorem forget_cfg (s : State) : (forget s).cfg = s.cfg := rfl
@[simp] theorem forget_moves (s : State) : (forget s).moves = s.moves := rfl
@[simp] theorem forget_draws (s : State) : (forget s).draws = s.draws := rfl
@[simp] theorem forget_responses (s : State) : (forget s).responses = s.responses := rfl
@[simp] theorem forget_freeCtr (s : State) : (forget s).freeCtr = s.freeCtr := rfl
@[simp] theorem forget_bufGen (s : State) : (forget s).bufGen = 0 := rfl

/-! ### takeMove -/

@[simp] theorem takeMove_life (m : Move) (rest : List Move) (s : State) : (takeMove m rest s).life = s.life := rfl
@[simp] theorem takeMove_buf (m : Move) (rest : List Move) (s : State) : (takeMove m rest s).buf = s.buf := rfl
@[simp] theorem takeMove_head (m : Move) (rest : List Move) (s : State) : (takeMove m rest s).head = s.head := rfl
@[simp] theorem takeMove_tail (m : Move) (rest : List Move) (s : State) : (takeMove m rest s).tail = s.tail := rfl
@[simp] theorem takeMove_dblLast (m : Move) (rest : List Move) (s : State) : (takeMove m rest s).dblLast = s.dblLast := rfl
@[simp] theorem takeMove_dblValid (m : Move) (rest : List Move) (s : State) : (takeMove m rest s).dblValid = s.dblValid := rfl
@[simp] theorem takeMove_irqPending (m : Move) (rest : List Move) (s : State) : (takeMove m rest s).irqPending = s.irqPending := rfl
@[simp] theorem takeMove_rdState (m : Move) (rest : List Move) (s : State) : (takeMove m rest s).rdState = s.rdState := rfl
@[simp] theorem takeMove_rdLen (m : Move) (rest : List Move) (s : State) : (takeMove m rest s).rdLen = s.rdLen := rfl
@[simp] theorem takeMove_rdAddr (m : Move) (rest : List Move) (s : State) : (takeMove m rest s).rdAddr = s.rdAddr := rfl
@[simp] theorem takeMove_ctrlValue (m : Move) (rest : List Move) (s : State) : (takeMove m rest s).ctrlValue = s.ctrlValue := rfl
@[simp] theorem takeMove_msg (m : Move) (rest : List Move) (s : State) : (takeMove m rest s).msg = s.msg := rfl
@[simp] theorem takeMove_msgLen (m : Move) (rest : List Move) (s : State) : (takeMove m rest s).msgLen = s.msgLen := rfl
@[simp] theorem takeMove_ticks (m : Move) (rest : List Move) (s : State) : (takeMove m rest s).ticks = s.ticks := rfl
@[simp] theorem takeMove_refused (m : Move) (rest : List Move) (s : State) : (takeMove m rest s).refused = s.refused := rfl
@[simp] theorem takeMove_hmem (m : Move) (rest : List Move) (s : State) : (takeMove m rest s).hmem = s.hmem := rfl
@[simp] theorem takeMove_cfg (m : Move) (rest : List Move) (s : State) : (takeMove m rest s).cfg = s.cfg := rfl
@[simp] theorem takeMove_moves (m : Move) (rest : List Move) (s : State) : (takeMove m rest s).moves = rest := rfl
@[simp] theorem takeMove_draws (m : Move) (rest : List Move) (s : State) : (takeMove m rest s).draws = m.draws := rfl
@[simp] theorem takeMove_responses (m : Move) (rest : List Move) (s : State) : (takeMove m rest s).responses = s.responses := rfl
@[simp] theorem takeMove_freeCtr (m : Move) (rest : List Move) (s : State) : (takeMove m rest s).freeCtr = s.freeCtr := rfl
@[simp] theorem takeMove_bufGen (m : Move) (rest : List Move) (s : State) : (takeMove m rest s).bufGen = s.bufGen := rfl

/-! ### endRead: idle afterwards, and only a reader that was waiting loses its operands -/

theorem endRead_of_idle {s : State} (h : s.rdState = .idle) : endRead s = s := by
  simp [endRead, h]

theorem endRead_of_wait {s : State} (h : s.rdState = .wait) :
    endRead s = dropReadOperands { s with rdState := .idle } := by
  simp [endRead, h]

@[simp] theorem endRead_rdState (s : State) : (endRead s).rdState = .idle := by
  unfold endRead; split <;> simp_all

@[simp] theorem endRead_life (s : State) : (endRead s).life = s.life := by
  unfold endRead; split <;> rfl

@[simp] theorem endRead_buf (s : State) : (endRead s).buf = s.buf := by
  unfold endRead; split <;> rfl

@[simp] theorem endRead_head (s : State) : (endRead s).head = s.head := by
  unfold endRead; split <;> rfl

@[simp] theorem endRead_tail (s : State) : (endRead s).tail = s.tail := by
  unfold endRead; split <;> rfl

@[simp] theorem endRead_dblLast (s : State) : (endRead s).dblLast = s.dblLast := by
  unfold endRead; split <;> rfl

@[simp] theorem endRead_dblValid (s : State) : (endRead s).dblValid = s.dblValid := by
  unfold endRead; split <;> rfl

@[simp] theorem endRead_irqPending (s : State) : (endRead s).irqPending = s.irqPending := by
  unfold endRead; split <;> rfl

@[simp] theorem endRead_ctrlValue (s : State) : (endRead s).ctrlValue = s.ctrlValue := by
  unfold endRead; split <;> rfl

@[simp] theorem endRead_msg (s : State) : (endRead s).msg = s.msg := by
  unfold endRead; split <;> rfl

@[simp] theorem endRead_msgLen (s : State) : (endRead s).msgLen = s.msgLen := by
  unfold endRead; split <;> rfl

@[simp] theorem endRead_ticks (s : State) : (endRead s).ticks = s.ticks := by
  unfold endRead; split <;> rfl

@[simp] theorem endRead_refused (s : State) : (endRead s).refused = s.refused := by
  unfold endRead; split <;> rfl

@[simp] theorem endRead_hmem (s : State) : (endRead s).hmem = s.hmem := by
  unfold endRead; split <;> rfl

@[simp] theorem endRead_cfg (s : State) : (endRead s).cfg = s.cfg := by
  unfold endRead; split <;> rfl

@[simp] theorem endRead_moves (s : State) : (endRead s).moves = s.moves := by
  unfold endRead; split <;> rfl

@[simp] theorem endRead_draws (s : State) : (endRead s).draws = s.draws := by
  unfold endRead; split <;> rfl

@[simp] theorem endRead_responses (s : State) : (endRead s).responses = s.responses := by
  unfold endRead; split <;> rfl

@[simp] theorem endRead_bufGen (s : State) : (endRead s).bufGen = s.bufGen := by
  unfold endRead; split <;> rfl

end Sys2Proof.Machine
end

