-- ==== Sys2Proof/Laws/Steps.lean ====
section
/-! SUPPORT. What each shared operation, each operation of the opcode table and each autonomous step can do, said once: if it
answers a next state, which one. Later proofs cite these and do not unfold the meanings. -/

namespace Sys2Proof.Machine

/-! ### Delivery -/

/-- A delivery that answers a next state read the record behind the head. -/
theorem deliver_cases {n : Nat} {dst : Nat} {s t : State} (h : deliver n dst s = .next t) :
    ∃ bytes, bufRead (prev s.cfg s.head) s.cfg.R s = some bytes ∧
      t = deliverBytes (deliveredBytes s.cfg n (recordValue bytes)) dst s := by
  unfold deliver at h
  split at h
  · cases h
  · next bytes hb => exact ⟨bytes, hb, (Host.Outcome.next.inj h).symm⟩

/-- A copy that succeeded moves the tail and answers the count. -/
theorem deliverBytes_ok {bytes : List Byte} {dst : Nat} {s : State} (h : hostWriteOk bytes s = true) :
    deliverBytes bytes dst s =
      respond .read .ok (countValue bytes.length) (endRead (drain (hostWritten dst bytes s))) := if_pos h

/-- A copy that faulted leaves the tail and answers BAD_ADDRESS. -/
theorem deliverBytes_fault {bytes : List Byte} {dst : Nat} {s : State} (h : hostWriteOk bytes s = false) :
    deliverBytes bytes dst s = respond .read .badAddress 0 (endRead (hostFaulted dst bytes s)) :=
  if_neg (by simp [h])

section
variable (bytes : List Byte) (dst : Nat) (s : State)

@[simp] theorem deliverBytes_life : (deliverBytes bytes dst s).life = s.life := by
  unfold deliverBytes; split <;> simp
@[simp] theorem deliverBytes_buf : (deliverBytes bytes dst s).buf = s.buf := by
  unfold deliverBytes; split <;> simp
@[simp] theorem deliverBytes_bufGen : (deliverBytes bytes dst s).bufGen = s.bufGen := by
  unfold deliverBytes; split <;> simp
@[simp] theorem deliverBytes_head : (deliverBytes bytes dst s).head = s.head := by
  unfold deliverBytes; split <;> simp
@[simp] theorem deliverBytes_dblLast : (deliverBytes bytes dst s).dblLast = s.dblLast := by
  unfold deliverBytes; split <;> simp
@[simp] theorem deliverBytes_dblValid : (deliverBytes bytes dst s).dblValid = s.dblValid := by
  unfold deliverBytes; split <;> simp
@[simp] theorem deliverBytes_irqPending : (deliverBytes bytes dst s).irqPending = s.irqPending := by
  unfold deliverBytes; split <;> simp
@[simp] theorem deliverBytes_rdState : (deliverBytes bytes dst s).rdState = .idle := by
  unfold deliverBytes; split <;> simp
@[simp] theorem deliverBytes_ctrlValue : (deliverBytes bytes dst s).ctrlValue = s.ctrlValue := by
  unfold deliverBytes; split <;> simp
@[simp] theorem deliverBytes_msg : (deliverBytes bytes dst s).msg = s.msg := by
  unfold deliverBytes; split <;> simp
@[simp] theorem deliverBytes_msgLen : (deliverBytes bytes dst s).msgLen = s.msgLen := by
  unfold deliverBytes; split <;> simp
@[simp] theorem deliverBytes_ticks : (deliverBytes bytes dst s).ticks = s.ticks := by
  unfold deliverBytes; split <;> simp
@[simp] theorem deliverBytes_refused : (deliverBytes bytes dst s).refused = s.refused := by
  unfold deliverBytes; split <;> simp
@[simp] theorem deliverBytes_cfg : (deliverBytes bytes dst s).cfg = s.cfg := by
  unfold deliverBytes; split <;> simp
@[simp] theorem deliverBytes_moves : (deliverBytes bytes dst s).moves = s.moves := by
  unfold deliverBytes; split <;> simp
@[simp] theorem deliverBytes_draws : (deliverBytes bytes dst s).draws = s.draws := by
  unfold deliverBytes; split <;> simp

/-- The tail of a delivery: moved by what is available, or left where the copy faulted. -/
theorem deliverBytes_tail : (deliverBytes bytes dst s).tail =
    if hostWriteOk bytes s = true then advance s.cfg s.tail (available s.cfg s.head s.tail) else s.tail := by
  unfold deliverBytes; split <;> simp [*]

/-- The response of a delivery. -/
theorem deliverBytes_responses : (deliverBytes bytes dst s).responses = s.responses ++
    [if hostWriteOk bytes s = true then ⟨.read, .ok, countValue bytes.length⟩ else ⟨.read, .badAddress, 0⟩] := by
  unfold deliverBytes; split <;> simp [*]

/-- A delivery stores to its range of host memory only: the bytes, or the bytes a fault leaves. -/
theorem deliverBytes_hmem : (deliverBytes bytes dst s).hmem = hmemStore s.cfg s.hmem dst
    (if hostWriteOk bytes s = true then bytes else faultedBytes bytes.length s) := by
  unfold deliverBytes; split <;> simp [*]

end

@[simp] theorem faultedBytes_length (n : Nat) (s : State) : (faultedBytes n s).length = n := by simp [faultedBytes]

/-! ### The requests of the event path -/

theorem execEdge_cases {s t : State} (h : execEdge s = .next t) :
    (s.life = .ready ∧ t = latchEdge s) ∨ (s.life = .off ∧ t = s) := by
  unfold execEdge at h
  split at h <;> cases h <;> simp_all

theorem execRead_cases {n : Nat} {dst : Nat} {s t : State} (h : execRead n dst s = .next t) :
    ((s.life = .off ∨ s.rdState = .wait) ∧ t = refuse s) ∨
    (s.life = .ready ∧ s.rdState = .idle ∧ s.head = s.tail ∧ t = joinWaitSet n dst s) ∨
    (s.life = .ready ∧ s.rdState = .idle ∧ s.head ≠ s.tail ∧ deliver n dst s = .next t) := by
  unfold execRead at h
  split at h
  · next hr => exact .inl ⟨hr, (Host.Outcome.next.inj h).symm⟩
  · next hr =>
    have hl : s.life = .ready := by cases hl : s.life <;> simp_all
    have hi : s.rdState = .idle := by cases hi : s.rdState <;> simp_all
    split at h
    · next he => exact .inr (.inl ⟨hl, hi, he, (Host.Outcome.next.inj h).symm⟩)
    · next he => exact .inr (.inr ⟨hl, hi, he, h⟩)

theorem execCancel_cases {s t : State} (h : execCancel s = .next t) :
    (s.life = .off ∧ t = refuse s) ∨
    (s.life = .ready ∧ s.rdState = .wait ∧
      t = respond .cancel .ok 0 (respond .read .interrupted 0 (endRead s))) ∨
    (s.life = .ready ∧ s.rdState = .idle ∧ t = respond .cancel .ok 0 s) := by
  unfold execCancel at h
  split at h
  · next hl => exact .inl ⟨hl, (Host.Outcome.next.inj h).symm⟩
  · next hl =>
    have hl : s.life = .ready := by cases hl : s.life <;> simp_all
    split at h
    · next hw => exact .inr (.inl ⟨hl, hw, (Host.Outcome.next.inj h).symm⟩)
    · next hi => exact .inr (.inr ⟨hl, hi, (Host.Outcome.next.inj h).symm⟩)

/-! ### The message path -/

/-- What a successful WRITE of these bytes leaves (45_message R180). -/
def written (n : Nat) (bytes : List Byte) (s : State) : State :=
  respond .write .ok (countValue n) { s with msg := displayString s.cfg bytes, msgLen := bytes.length }

theorem execWrite_cases {n : Nat} {src : Nat} {s t : State} (h : execWrite n src s = .next t) :
    (s.life = .off ∧ t = refuse s) ∨
    (s.life = .ready ∧ hostRead src (min n s.cfg.msgMax) s = none ∧ t = respond .write .badAddress 0 s) ∨
    (s.life = .ready ∧ ∃ bytes, hostRead src (min n s.cfg.msgMax) s = some bytes ∧ t = written n bytes s) := by
  unfold execWrite at h
  split at h
  · next hl => exact .inl ⟨hl, (Host.Outcome.next.inj h).symm⟩
  · next hl =>
    have hl : s.life = .ready := by cases hl : s.life <;> simp_all
    split at h
    · next hn => exact .inr (.inl ⟨hl, hn, (Host.Outcome.next.inj h).symm⟩)
    · next bytes hb => exact .inr (.inr ⟨hl, bytes, hb, (Host.Outcome.next.inj h).symm⟩)

theorem hostRead_some {addr : Nat} {n : Nat} {s : State} {bytes : List Byte}
    (h : hostRead addr n s = some bytes) : bytes = hmemLoad s.cfg s.hmem addr n ∧ bytes.length = n := by
  unfold hostRead at h
  split at h
  · cases h; simp
  · cases h

/-! ### The Control Channel -/

/-- What stands in front of a command: the refusal, a failed check, or the command itself. -/
theorem ctrlChecked_cases (d : BitVec 2) (arg : Nat) (f : State → Result) (s : State) :
    (s.life = .off ∧ ctrlChecked d arg f s = .next (refuse s)) ∨
    (s.life = .ready ∧ ctrlChecked d arg f s = .next (respond .ctrl .badAddress 0 s)) ∨
    (s.life = .ready ∧ ctrlChecked d arg f s = f s) := by
  unfold ctrlChecked ctrlError
  split
  · next hl => exact .inl ⟨hl, rfl⟩
  · next hl =>
    have hl : s.life = .ready := by cases hl : s.life <;> simp_all
    split
    · exact .inr (.inl ⟨hl, rfl⟩)
    · split
      · exact .inr (.inl ⟨hl, rfl⟩)
      · exact .inr (.inr ⟨hl, rfl⟩)

/-- With the accessibility answers favourable the checks pass. -/
theorem ctrlChecked_pass {d : BitVec 2} {arg : Nat} {f : State → Result} {s : State} (hl : s.life = .ready)
    (h0 : d.getLsbD 0 = true → s.draws.accToBlock = true) (h1 : d.getLsbD 1 = true → s.draws.accToHost = true) :
    ctrlChecked d arg f s = f s := by
  unfold ctrlChecked
  rw [if_neg (by simp [hl]), if_neg, if_neg]
  · simp only [hostAcc, not_and]; intro hd; simp [h1 hd]
  · simp only [hostAcc, not_and]; intro hd; simp [h0 hd]

/-- The three ends of a CTRL.SET. -/
theorem execCtrlSet_cases {arg : Nat} {s t : State} (h : execCtrlSet arg s = .next t) :
    (s.life = .off ∧ t = refuse s) ∨ (s.life = .ready ∧ t = respond .ctrl .badAddress 0 s) ∨
    (s.life = .ready ∧ ∃ bytes, hostRead arg s.cfg.ctrlLen s = some bytes ∧
      t = respond .ctrl .ok 0 { s with ctrlValue := ctrlOfBytes s.cfg bytes }) := by
  unfold execCtrlSet at h
  rcases ctrlChecked_cases dirToBlock arg _ s with ⟨hl, e⟩ | ⟨hl, e⟩ | ⟨hl, e⟩ <;> rw [e] at h
  · exact .inl ⟨hl, (Host.Outcome.next.inj h).symm⟩
  · exact .inr (.inl ⟨hl, (Host.Outcome.next.inj h).symm⟩)
  · split at h
    · exact .inr (.inl ⟨hl, (Host.Outcome.next.inj h).symm⟩)
    · next bytes hb => exact .inr (.inr ⟨hl, bytes, hb, (Host.Outcome.next.inj h).symm⟩)

/-- The two ends of a copy-out. -/
theorem ctrlCopyOut_cases {arg : Nat} {v : Nat} {f : State → State} {s t : State}
    (h : ctrlCopyOut arg v f s = .next t) :
    t = respond .ctrl .ok 0 (f (hostWritten arg (ctrlBytes s.cfg v) s)) ∨
    t = respond .ctrl .badAddress 0 (hostFaulted arg (ctrlBytes s.cfg v) s) := by
  unfold ctrlCopyOut ctrlError at h
  split at h <;> cases h
  · exact .inl rfl
  · exact .inr rfl

/-- The four ends of a CTRL.GET. -/
theorem execCtrlGet_cases {arg : Nat} {s t : State} (h : execCtrlGet arg s = .next t) :
    (s.life = .off ∧ t = refuse s) ∨ (s.life = .ready ∧ t = respond .ctrl .badAddress 0 s) ∨
    (s.life = .ready ∧ t = respond .ctrl .ok 0 (hostWritten arg (ctrlBytes s.cfg s.ctrlValue) s)) ∨
    (s.life = .ready ∧ t = respond .ctrl .badAddress 0 (hostFaulted arg (ctrlBytes s.cfg s.ctrlValue) s)) := by
  unfold execCtrlGet at h
  rcases ctrlChecked_cases dirToHost arg _ s with ⟨hl, e⟩ | ⟨hl, e⟩ | ⟨hl, e⟩ <;> rw [e] at h
  · exact .inl ⟨hl, (Host.Outcome.next.inj h).symm⟩
  · exact .inr (.inl ⟨hl, (Host.Outcome.next.inj h).symm⟩)
  · rcases ctrlCopyOut_cases h with h | h
    · exact .inr (.inr (.inl ⟨hl, h⟩))
    · exact .inr (.inr (.inr ⟨hl, h⟩))

/-- The five ends of a CTRL.EXCHANGE. -/
theorem execCtrlExchange_cases {arg : Nat} {s t : State} (h : execCtrlExchange arg s = .next t) :
    (s.life = .off ∧ t = refuse s) ∨ (s.life = .ready ∧ t = respond .ctrl .badAddress 0 s) ∨
    (s.life = .ready ∧ ∃ bytes, hostRead arg s.cfg.ctrlLen s = some bytes ∧
      (t = respond .ctrl .ok 0
          { hostWritten arg (ctrlBytes s.cfg (2 * ctrlOfBytes s.cfg bytes % 2 ^ s.cfg.ctrlW)) s with
            ctrlValue := 2 * ctrlOfBytes s.cfg bytes % 2 ^ s.cfg.ctrlW } ∨
        t = respond .ctrl .badAddress 0 (hostFaulted arg (ctrlBytes s.cfg (2 * ctrlOfBytes s.cfg bytes % 2 ^ s.cfg.ctrlW)) s))) := by
  unfold execCtrlExchange at h
  rcases ctrlChecked_cases dirBoth arg _ s with ⟨hl, e⟩ | ⟨hl, e⟩ | ⟨hl, e⟩ <;> rw [e] at h
  · exact .inl ⟨hl, (Host.Outcome.next.inj h).symm⟩
  · exact .inr (.inl ⟨hl, (Host.Outcome.next.inj h).symm⟩)
  · dsimp only at h
    split at h
    · exact .inr (.inl ⟨hl, (Host.Outcome.next.inj h).symm⟩)
    · next bytes hb => exact .inr (.inr ⟨hl, bytes, hb, ctrlCopyOut_cases h⟩)

theorem execCtrlInvalid_cases (c : CmdWord) (arg : Nat) {s t : State} (h : execCtrlInvalid c arg s = .next t) :
    (s.life = .off ∧ t = refuse s) ∨ (s.life = .ready ∧ t = respond .ctrl .invalidCommand 0 s) := by
  unfold execCtrlInvalid ctrlError at h
  split at h
  · next hl => exact .inl ⟨hl, (Host.Outcome.next.inj h).symm⟩
  · next hl => exact .inr ⟨by cases hl : s.life <;> simp_all, (Host.Outcome.next.inj h).symm⟩

/-! ### The lifecycle -/

theorem execInit_cases {s t : State} (h : execInit s = .next t) :
    (s.life = .ready ∧ t = refuse s) ∨
    (s.life = .off ∧ t = respond .init .resourceUnavailable 0 s) ∨
    (s.life = .off ∧ t = respond .init .ok 0 (initialise s)) := by
  unfold execInit initFailed at h
  split at h
  · next hl => exact .inl ⟨hl, (Host.Outcome.next.inj h).symm⟩
  · next hl =>
    have hl : s.life = .off := by cases hl : s.life <;> simp_all
    repeat' split at h
    all_goals cases h
    all_goals simp [hl]

theorem execTeardown_cases {s t : State} (h : execTeardown s = .next t) :
    ((s.life = .off ∨ s.rdState = .wait) ∧ t = refuse s) ∨
    (s.life = .ready ∧ s.rdState = .idle ∧
      t = respond .teardown .ok 0 (dropReadOperands (forget { clearEdge s with life := .off }))) := by
  unfold execTeardown at h
  split at h
  · next hr => exact .inl ⟨hr, (Host.Outcome.next.inj h).symm⟩
  · next hr =>
    refine .inr ⟨?_, ?_, (Host.Outcome.next.inj h).symm⟩
    · cases hl : s.life <;> simp_all
    · cases hi : s.rdState <;> simp_all

/-! ### The autonomous steps -/

/-- What an admitted CAPTURE leaves (42_capture R124). -/
def captured (s : State) : State :=
  { acceptEvent s.ticks (clearEdge s) with
    buf := bufPut s.buf s.head (leBytes s.cfg.R s.ticks.toNat)
    head := advance s.cfg s.head s.cfg.R }

theorem captureRecord_ok {now : Timestamp} {s : State} (h : bufAccessOk s.cfg s.head s.cfg.R) :
    captureRecord now s = .next
      { s with
        buf := bufPut s.buf s.head (leBytes s.cfg.R now.toNat)
        head := advance s.cfg s.head s.cfg.R } := by
  unfold captureRecord
  rw [bufWrite_eq h]
  rfl

theorem captureRecord_fault {now : Timestamp} {s : State} (h : ¬bufAccessOk s.cfg s.head s.cfg.R) :
    captureRecord now s = .fault .bufBounds := by
  unfold captureRecord bufWrite
  rw [if_neg h]

/-- An enabled CAPTURE is a rejection, or the record of its timestamp. -/
theorem captureStep_enabled {s : State} (he : captureEnabled s) :
    captureStep s =
      if admits s.ticks s = true then captureRecord s.ticks (acceptEvent s.ticks (clearEdge s))
      else .next (clearEdge s) := by
  unfold captureStep admitEvent
  rw [if_pos he]
  by_cases ha : admits s.ticks s = true
  · rw [if_pos ha, if_pos (show admits s.ticks (clearEdge s) = true from ha)]
  · rw [if_neg ha, if_neg (show ¬admits s.ticks (clearEdge s) = true from ha)]

/-- An enabled CAPTURE whose head is a legal offset takes its step. -/
theorem captureStep_eq {s : State} (he : captureEnabled s) (hb : bufAccessOk s.cfg s.head s.cfg.R) :
    captureStep s = .next (if admits s.ticks s = true then captured s else clearEdge s) := by
  rw [captureStep_enabled he]
  split
  · exact captureRecord_ok (s := acceptEvent s.ticks (clearEdge s)) hb
  · rfl

theorem captureStep_cases {s t : State} (h : captureStep s = .next t) :
    captureEnabled s ∧
      ((admits s.ticks s = false ∧ t = clearEdge s) ∨
        (admits s.ticks s = true ∧ bufAccessOk s.cfg s.head s.cfg.R ∧ t = captured s)) := by
  by_cases he : captureEnabled s
  · refine ⟨he, ?_⟩
    by_cases hb : bufAccessOk s.cfg s.head s.cfg.R
    · rw [captureStep_eq he hb] at h
      split at h
      · next ha => exact .inr ⟨ha, hb, (Host.Outcome.next.inj h).symm⟩
      · next ha => exact .inl ⟨by simpa using ha, (Host.Outcome.next.inj h).symm⟩
    · rw [captureStep_enabled he] at h
      split at h
      · rw [captureRecord_fault (s := acceptEvent s.ticks (clearEdge s)) hb] at h
        cases h
      · next ha => exact .inl ⟨by simpa using ha, (Host.Outcome.next.inj h).symm⟩
  · rw [captureStep, if_neg he] at h
    cases h

theorem completeStep_cases {s t : State} (h : completeStep s = .next t) :
    completeEnabled s ∧ deliver s.rdLen s.rdAddr s = .next t := by
  unfold completeStep at h
  split at h
  · next he => exact ⟨he, h⟩
  · cases h

/-! ### The step -/

theorem step_cases {s t : State} (h : step s = .next t) :
    s.cfg.Ok ∧ ((s.moves = [] ∧ t = s) ∨
      ∃ m rest, s.moves = m :: rest ∧ runMove m.what (takeMove m rest s) = .next t) := by
  unfold step nextStep at h
  split at h
  · next hc =>
    refine ⟨hc, ?_⟩
    split at h
    · next hm => exact .inl ⟨hm, (Host.Outcome.next.inj h).symm⟩
    · next m rest hm => exact .inr ⟨m, rest, hm, h⟩
  · cases h

end Sys2Proof.Machine
end

