-- ==== Sys2Proof/Laws/Invariant.lean ====
section
/-! SUPPORT. The invariant and the shared operations: each of them keeps it. -/

namespace Sys2Proof.Machine

/-- The invariant reads these elements only. -/
theorem Inv.congr {s t : State} (h : Inv s) (life : t.life = s.life) (buf : t.buf = s.buf) (head : t.head = s.head)
    (tail : t.tail = s.tail) (last : t.dblLast = s.dblLast) (valid : t.dblValid = s.dblValid)
    (edge : s.life = .off → t.irqPending = false) (idle : s.life = .off → t.rdState = .idle)
    (hmem : Memory.wf s.cfg t.hmem) (cfg : t.cfg = s.cfg) (msg : t.msg = s.msg) (msgLen : t.msgLen = s.msgLen)
    (ctrl : t.ctrlValue < 2 ^ s.cfg.ctrlW) (len : t.rdLen < 2 ^ s.cfg.lenW) (addr : t.rdAddr < 2 ^ s.cfg.haddrW) :
    Inv t where
  cfgOk := by rw [cfg]; exact h.cfgOk
  hmemWf := by rw [cfg]; exact hmem
  bufRising := by rw [buf]; exact h.bufRising
  bufBound := by rw [buf, cfg]; exact h.bufBound
  msgLength := by rw [msg, cfg]; exact h.msgLength
  msgLenLe := by rw [msgLen, cfg]; exact h.msgLenLe
  msgRest := by rw [msg, msgLen]; exact h.msgRest
  ctrlBits := by rw [cfg]; exact ctrl
  rdLenBits := by rw [cfg]; exact len
  rdAddrBits := by rw [cfg]; exact addr
  headLt := by rw [life, head, cfg]; exact h.headLt
  tailLt := by rw [life, tail, cfg]; exact h.tailLt
  headAligned := by rw [life, head, cfg]; exact h.headAligned
  tailAligned := by rw [life, tail, cfg]; exact h.tailAligned
  offNoEdge := by rw [life]; exact edge
  offIdle := by rw [life]; exact idle
  unsetEmpty := by rw [life, valid, head, tail]; exact h.unsetEmpty
  latest := by rw [life, valid, head, last, cfg]; intro a b; exact recordIs_congr buf cfg (h.latest a b)

theorem endRead_rdLen_lt {s : State} (h : s.rdLen < 2 ^ s.cfg.lenW) : (endRead s).rdLen < 2 ^ s.cfg.lenW := by
  unfold endRead
  split
  · exact h
  · exact Nat.mod_lt _ (Nat.two_pow_pos _)

theorem endRead_rdAddr_lt {s : State} (h : s.rdAddr < 2 ^ s.cfg.haddrW) : (endRead s).rdAddr < 2 ^ s.cfg.haddrW := by
  unfold endRead
  split
  · exact h
  · exact Nat.mod_lt _ (Nat.two_pow_pos _)

section
variable {s : State} (h : Inv s)
include h

theorem refuse_keeps_inv : Inv (refuse s) :=
  h.congr rfl rfl rfl rfl rfl rfl h.offNoEdge h.offIdle h.hmemWf rfl rfl rfl h.ctrlBits h.rdLenBits h.rdAddrBits

theorem respond_keeps_inv (k : ReqKind) (st : Status) (v : BitVec 64) : Inv (respond k st v s) :=
  h.congr rfl rfl rfl rfl rfl rfl h.offNoEdge h.offIdle h.hmemWf rfl rfl rfl h.ctrlBits h.rdLenBits h.rdAddrBits

theorem hostWritten_keeps_inv (a : Nat) (bytes : List Byte) : Inv (hostWritten a bytes s) :=
  h.congr rfl rfl rfl rfl rfl rfl h.offNoEdge h.offIdle (hmemStore_wf h.hmemWf _ _) rfl rfl rfl h.ctrlBits h.rdLenBits h.rdAddrBits

theorem hostFaulted_keeps_inv (a : Nat) (bytes : List Byte) : Inv (hostFaulted a bytes s) :=
  h.congr rfl rfl rfl rfl rfl rfl h.offNoEdge h.offIdle (hmemStore_wf h.hmemWf _ _) rfl rfl rfl h.ctrlBits h.rdLenBits h.rdAddrBits

theorem endRead_keeps_inv : Inv (endRead s) :=
  h.congr (by simp) (by simp) (by simp) (by simp) (by simp) (by simp) (by simpa using h.offNoEdge) (by simp)
    (by simpa using h.hmemWf) (by simp) (by simp) (by simp)
    (by simpa using h.ctrlBits) (endRead_rdLen_lt h.rdLenBits) (endRead_rdAddr_lt h.rdAddrBits)

theorem takeMove_keeps_inv (m : Move) (rest : List Move) : Inv (takeMove m rest s) :=
  h.congr rfl rfl rfl rfl rfl rfl h.offNoEdge h.offIdle h.hmemWf rfl rfl rfl h.ctrlBits h.rdLenBits h.rdAddrBits

theorem ctrlValue_keeps_inv {v : Nat} (hv : v < 2 ^ s.cfg.ctrlW) : Inv { s with ctrlValue := v } :=
  h.congr rfl rfl rfl rfl rfl rfl h.offNoEdge h.offIdle h.hmemWf rfl rfl rfl hv h.rdLenBits h.rdAddrBits

theorem joinWaitSet_keeps_inv {n dst : Nat} (hl : s.life = .ready) (hn : n < 2 ^ s.cfg.lenW)
    (hd : dst < 2 ^ s.cfg.haddrW) : Inv (joinWaitSet n dst s) :=
  h.congr rfl rfl rfl rfl rfl rfl h.offNoEdge (by intro ho; exact nomatch ho.symm.trans hl) h.hmemWf rfl rfl rfl
    h.ctrlBits hn hd

theorem clearEdge_keeps_inv : Inv (clearEdge s) :=
  h.congr rfl rfl rfl rfl rfl rfl (fun _ => rfl) h.offIdle h.hmemWf rfl rfl rfl h.ctrlBits h.rdLenBits h.rdAddrBits

/-- A delivery from a non-empty buffer leaves the tail at the head, or at 0 where the head has wrapped. -/
theorem drained_tail (hl : s.life = .ready) : (drain s).tail = if s.tail ≤ s.head then s.head else 0 :=
  advance_available (h.headLt hl) (h.tailLt hl)

theorem drain_keeps_inv (hl : s.life = .ready) (hne : s.head ≠ s.tail) : Inv (drain s) :=
  have hC := h.headLt hl
  { cfgOk := h.cfgOk
    hmemWf := h.hmemWf
    bufRising := h.bufRising
    bufBound := h.bufBound
    msgLength := h.msgLength
    msgLenLe := h.msgLenLe
    msgRest := h.msgRest
    ctrlBits := h.ctrlBits
    rdLenBits := h.rdLenBits
    rdAddrBits := h.rdAddrBits
    headLt := h.headLt
    tailLt := by intro _; rw [drained_tail h hl]; simp only [drain_cfg]; split <;> omega
    headAligned := h.headAligned
    tailAligned := by
      intro _; rw [drained_tail h hl]; have := h.headAligned hl; simp only [drain_cfg]; split <;> simp_all
    offNoEdge := h.offNoEdge
    offIdle := h.offIdle
    unsetEmpty := by intro _ hv; rw [drain_dblValid, h.valid_of_nonempty hl hne] at hv; cases hv
    latest := fun _ hv => recordIs_congr rfl rfl (h.latest hl hv) }

theorem deliverBytes_keeps_inv (bytes : List Byte) (dst : Nat) (hl : s.life = .ready) (hne : s.head ≠ s.tail) :
    Inv (deliverBytes bytes dst s) := by
  unfold deliverBytes
  split
  · exact respond_keeps_inv (endRead_keeps_inv (drain_keeps_inv (hostWritten_keeps_inv h _ _) hl hne)) _ _ _
  · exact respond_keeps_inv (endRead_keeps_inv (hostFaulted_keeps_inv h _ _)) _ _ _

theorem captured_keeps_inv (hl : s.life = .ready) : Inv (captured s) :=
  have hadv := advance_record h.cfgOk (h.headAligned hl)
  { cfgOk := h.cfgOk
    hmemWf := h.hmemWf
    bufRising := bufPut_rising h.bufRising _ _
    bufBound := by
      intro c hc
      rcases mem_bufPut hc with ⟨_, hc⟩ | hc
      · have hb := (head_access h.cfgOk (h.headLt hl) (h.headAligned hl)).2.2
        rw [leBytes_length] at hc
        exact lt_of_lt_of_le hc hb
      · exact h.bufBound c hc
    msgLength := h.msgLength
    msgLenLe := h.msgLenLe
    msgRest := h.msgRest
    ctrlBits := h.ctrlBits
    rdLenBits := h.rdLenBits
    rdAddrBits := h.rdAddrBits
    headLt := fun _ => hadv.1
    tailLt := h.tailLt
    headAligned := fun _ => hadv.2
    tailAligned := h.tailAligned
    offNoEdge := by intro ho; simp [captured, hl] at ho
    offIdle := by intro ho; simp [captured, hl] at ho
    unsetEmpty := by intro _ hv; simp [captured] at hv
    latest := by
      intro _ _
      rw [show prev (captured s).cfg (captured s).head = s.head from
        prev_advance h.cfgOk (h.headLt hl) (h.headAligned hl)]
      exact recordIs_congr (s := { s with buf := bufPut s.buf s.head (leBytes s.cfg.R s.ticks.toNat) }) rfl rfl
        recordIs_bufPut }

theorem written_keeps_inv {n : Nat} {bytes : List Byte} (hle : bytes.length ≤ s.cfg.msgMax) : Inv (written n bytes s) :=
  { cfgOk := h.cfgOk
    hmemWf := h.hmemWf
    bufRising := h.bufRising
    bufBound := h.bufBound
    msgLength := by simp only [written, respond_msg, respond_cfg, displayString]; simp; omega
    msgLenLe := hle
    msgRest := by simp [written, displayString]
    ctrlBits := h.ctrlBits
    rdLenBits := h.rdLenBits
    rdAddrBits := h.rdAddrBits
    headLt := h.headLt
    tailLt := h.tailLt
    headAligned := h.headAligned
    tailAligned := h.tailAligned
    offNoEdge := h.offNoEdge
    offIdle := h.offIdle
    unsetEmpty := h.unsetEmpty
    latest := fun hl hv => recordIs_congr rfl rfl (h.latest hl hv) }

theorem initialise_keeps_inv : Inv (initialise s) := by
  have := Ok_C_ge h.cfgOk
  constructor <;> simp [List.drop_replicate, Nat.mod_lt _ (Nat.two_pow_pos _)]
  · exact h.cfgOk
  · exact h.hmemWf
  · omega
  · omega

theorem torndown_keeps_inv (hi : s.rdState = .idle) :
    Inv (dropReadOperands (forget { clearEdge s with life := .off })) := by
  constructor <;> simp [hi, Nat.mod_lt _ (Nat.two_pow_pos _)]
  · exact h.cfgOk
  · exact h.hmemWf

end

end Sys2Proof.Machine
end

