-- ==== Sys2Proof/Laws/PerInstr.lean ====
section
/-! SUPPORT. Statements about every operation as syntax, one lemma for each constructor. OpField: the operation select of an
encoded operation is the one 30_encoding R71 gives it. -/

namespace Sys2Proof.Laws.OpField

def Statement (i : Instr) : Prop := ∀ p : Params, (encode p i).op = opSelect i

theorem edge : Statement .edge := fun _ => op_reqWord ..
theorem tick (k : Nat) : Statement (.tick k) := fun _ => op_reqWord ..
theorem read (n dst : Nat) : Statement (.read n dst) := fun _ => op_reqWord ..
theorem cancel : Statement .cancel := fun _ => op_reqWord ..
theorem write (n src : Nat) : Statement (.write n src) := fun _ => op_reqWord ..
theorem ctrlSet (arg : Nat) : Statement (.ctrlSet arg) := fun _ => op_reqWord ..
theorem ctrlGet (arg : Nat) : Statement (.ctrlGet arg) := fun _ => op_reqWord ..
theorem ctrlExchange (arg : Nat) : Statement (.ctrlExchange arg) := fun _ => op_reqWord ..
theorem ctrlInvalid (cmd : CmdWord) (arg : Nat) : Statement (.ctrlInvalid cmd arg) := fun _ => op_reqWord ..
theorem init : Statement .init := fun _ => op_reqWord ..
theorem teardown : Statement .teardown := fun _ => op_reqWord ..
theorem reserved (op : BitVec 4) : Statement (.reserved op) := fun _ => op_reqWord ..

end Sys2Proof.Laws.OpField
end

