-- ==== Sys2Proof/Tests/Slice0.lean ====
section
/-! SUPPORT. Tests whose expected results are the spec's (95_test_vectors and the rules it cites), an ill-formed term for each
check of WellFormed, and for every obligation with hypotheses a state and operands that meet them, clause by clause. -/

namespace Sys2Proof.Tests

open Sys2Proof.Machine

/-! ### Small states -/

/-- The outcome is a next state for which `f` holds. -/
def nextAnd (r : Result) (f : State → Bool) : Bool :=
  match nextOf r with
  | some t => f t
  | none => false

/-- The outcome is the next state `u`. -/
def isNext (r : Result) (u : State) : Bool := nextAnd r (· == u)

/-- The outcome is a refusal for the reason `e`. -/
def refusedBy (r : Result) (e : Refusal) : Bool :=
  match r with
  | .next _ => false
  | .fault _ => false
  | .refused e' => e' == e

theorem exists_next {r : Result} {f : State → Bool} (h : nextAnd r f = true) : ∃ t, r = .next t ∧ f t = true := by
  unfold nextAnd nextOf at h
  cases r with
  | next t => exact ⟨t, rfl, h⟩
  | fault e => cases h
  | refused e => cases h

/-- The parameters with `C = 32` (95_test_vectors, P2). -/
def small : Params := { Params.default with C := 32 }

/-- The parameters with the smallest buffer R11 allows. -/
def tiny : Params := { Params.default with C := 16 }

/-- The parameters with other widths of the ControlValue, the addresses and the lengths (00_scope R10; log entry 12). -/
def narrow : Params := { Params.default with ctrlW := 16, haddrW := 16, lenW := 8 }

/-- The parameters with a ControlValue of no bits. -/
def noCtrl : Params := { Params.default with ctrlW := 0 }

/-- A parameter set R10 allows in which SET and GET have the same index 5 (30_encoding R76 to R78). -/
def sharedIndex : Params := { Params.default with nrSet := 5, nrGet := 5, cmdMaxNr := 5 }

/-- READY, with the record of an admitted event at `last` behind the head. -/
def stateAt (p : Params) (head tail : Nat) (last : Timestamp) : State :=
  { State.powerOn p with
    life := .ready
    buf := bufPut [] (prev p head) (leBytes p.R last.toNat)
    head := head
    tail := tail
    dblLast := last
    dblValid := true }

theorem inv_stateAt {p : Params} {head tail : Nat} (last : Timestamp) (hp : p.Ok) (hh : head < p.C) (ht : tail < p.C)
    (ah : head % p.R = 0) (at' : tail % p.R = 0) : Inv (stateAt p head tail last) where
  cfgOk := hp
  hmemWf := ⟨List.Pairwise.nil, by intro c hc; cases hc⟩
  bufRising := bufPut_rising List.Pairwise.nil _ _
  bufBound := by
    intro c hc
    rcases mem_bufPut hc with ⟨_, hc⟩ | hc
    · rw [leBytes_length] at hc
      exact lt_of_lt_of_le hc (prev_access hp hh ah).2.2
    · cases hc
  msgLength := List.length_replicate
  msgLenLe := Nat.zero_le _
  msgRest := by intro b hb; exact List.eq_of_mem_replicate hb
  ctrlBits := Nat.two_pow_pos _
  rdLenBits := Nat.two_pow_pos _
  rdAddrBits := Nat.two_pow_pos _
  headLt := fun _ => hh
  tailLt := fun _ => ht
  headAligned := fun _ => ah
  tailAligned := fun _ => at'
  offNoEdge := fun h => nomatch h
  offIdle := fun h => nomatch h
  unsetEmpty := fun _ h => nomatch h
  latest := fun _ _ => recordIs_bufPut (s := { stateAt p head tail last with buf := [] })

/-- VR1: one event, at 100. -/
def one : State := stateAt Params.default 8 0 100

/-- VR6: nothing to read. -/
def empty : State := stateAt Params.default 8 8 100

/-- VR10: the head has wrapped past the tail. -/
def wrapped : State := stateAt small 8 24 100

/-- VR12: the head has wrapped to 0. -/
def wrappedToZero : State := stateAt small 0 8 80

/-- VE9: the head is at the last slot. -/
def lastSlot : State := stateAt Params.default 4088 0 100

/-- The state with a READ outstanding. -/
def waiting (s : State) : State := joinWaitSet 17 0x1000 s

/-- The state with a READ of no bytes outstanding. -/
def waitingForNone (s : State) : State := joinWaitSet 0 0x1000 s

/-- The state with an edge pending at a time. -/
def edgeAt (now : Timestamp) (s : State) : State := { s with irqPending := true, ticks := now }

/-- The state with the host's answer to a HostWrite. -/
def writeFaults (s : State) : State := { s with draws := { s.draws with writeOk := false } }

theorem inv_one : Inv one := inv_stateAt 100 (by decide) (by decide) (by decide) (by decide) (by decide)
theorem inv_empty : Inv empty := inv_stateAt 100 (by decide) (by decide) (by decide) (by decide) (by decide)
theorem inv_wrapped : Inv wrapped := inv_stateAt 100 (by decide) (by decide) (by decide) (by decide) (by decide)
theorem inv_wrappedToZero : Inv wrappedToZero :=
  inv_stateAt 80 (by decide) (by decide) (by decide) (by decide) (by decide)
theorem inv_lastSlot : Inv lastSlot := inv_stateAt 100 (by decide) (by decide) (by decide) (by decide) (by decide)

theorem inv_waiting {s : State} (h : Inv s) (hl : s.life = .ready) (hn : 17 < 2 ^ s.cfg.lenW := by decide)
    (hd : 0x1000 < 2 ^ s.cfg.haddrW := by decide) : Inv (waiting s) := joinWaitSet_keeps_inv h hl hn hd

theorem inv_edgeAt {s : State} (h : Inv s) (hl : s.life = .ready) (now : Timestamp) : Inv (edgeAt now s) :=
  { h with offNoEdge := by intro ho; exact nomatch ho.symm.trans hl }

theorem inv_writeFaults {s : State} (h : Inv s) : Inv (writeFaults s) := { h with }

/-- The state with answers of the host that allow everything but the ones named. -/
def answering (acc_in acc_out copy_in copy_out : Bool) (s : State) : State :=
  { s with
    draws := { s.draws with accToBlock := acc_in, accToHost := acc_out, readOk := copy_in, writeOk := copy_out } }

/-- The state with one move to come. -/
def moving (w : MoveKind) (s : State) : State := { s with moves := [⟨w, Draws.allow⟩] }

/-- The state right after a successful INIT at power-on (46_lifecycle R192). -/
def initialised : State := { State.powerOn Params.default with life := .ready, dblLast := Config.unsetDblLast 0 }

theorem inv_moving {s : State} (h : Inv s) (w : MoveKind) : Inv (moving w s) := { h with }

theorem inv_initialised : Inv initialised := by
  constructor <;> intros
  all_goals first
    | decide
    | exact List.Pairwise.nil
    | (exact List.eq_of_mem_replicate ‹_›)
    | (exact nomatch ‹Life.ready = Life.off›)
    | (exact nomatch ‹false = true›)
    | (rename_i hc; cases hc)

/-! ### WellFormed refuses an ill-formed term for each of its checks -/

theorem test_wellFormed_accepts : (WellFormed Params.default .edge && WellFormed Params.default (.tick 10) &&
    WellFormed Params.default (.read 17 0x1000) && WellFormed Params.default .cancel &&
    WellFormed Params.default (.write 5 0x1000) && WellFormed Params.default (.ctrlSet 0x3000) &&
    WellFormed Params.default (.ctrlGet 0x3000) && WellFormed Params.default (.ctrlExchange 0x3000) &&
    WellFormed Params.default (.ctrlInvalid 0x40046B03 0x3000) && WellFormed Params.default .init &&
    WellFormed Params.default .teardown && WellFormed Params.default (.reserved 0x8)) = true := by decide
theorem test_wellFormed_ctrlInvalid_set : WellFormed Params.default (.ctrlInvalid 0x40046B00 0) = false := by decide
theorem test_wellFormed_reserved_cancel : WellFormed Params.default (.reserved 0x3) = false := by decide
theorem test_wellFormed_set_past_max :
    WellFormed { Params.default with nrSet := 3 } (.ctrlSet 0) = false := by decide
theorem test_wellFormed_get_past_max :
    WellFormed { Params.default with nrGet := 3 } (.ctrlGet 0) = false := by decide
theorem test_wellFormed_exchange_past_max :
    WellFormed { Params.default with nrExchange := 3 } (.ctrlExchange 0) = false := by decide
/-- An operand wider than its field: lengths of 8 bits, addresses of 16. -/
theorem test_wellFormed_operand_widths : ([.tick 0x100, .read 0x100 0, .read 0 0x10000, .write 0x100 0, .write 0 0x10000,
    .ctrlSet 0x10000, .ctrlGet 0x10000, .ctrlExchange 0x10000, .ctrlInvalid 0 0x10000].map (WellFormed narrow)) =
      List.replicate 9 false := by decide

/-! ### Words written out from the encodings (30_encoding R70, R71, R76, R77; 95_test_vectors 2.9) -/

theorem test_word_edge : decode Params.default ⟨0b0000#4 ++ 0#32, 9, 9⟩ = .edge := by decide
theorem test_word_tick : decode Params.default ⟨0b0001#4 ++ 0#32, 10, 9⟩ = .tick 10 := by decide
theorem test_word_read : decode Params.default ⟨0b0010#4 ++ 0xDEADBEEF#32, 17, 0x1000⟩ = .read 17 0x1000 := by decide
theorem test_word_cancel : decode Params.default ⟨0b0011#4 ++ 0#32, 9, 9⟩ = .cancel := by decide
theorem test_word_write : decode Params.default ⟨0b0100#4 ++ 0#32, 5, 0x2000⟩ = .write 5 0x2000 := by decide
theorem test_word_ctrlSet : decode Params.default
    ⟨0b0101#4 ++ 0b01#2 ++ 0b00000000000100#14 ++ 0b01101011#8 ++ 0b00000000#8, 9, 0x3000⟩ = .ctrlSet 0x3000 := by decide
theorem test_word_ctrlGet : decode Params.default
    ⟨0b0101#4 ++ 0b10#2 ++ 0b00000000000100#14 ++ 0b01101011#8 ++ 0b00000001#8, 9, 0x3000⟩ = .ctrlGet 0x3000 := by decide
theorem test_word_ctrlExchange : decode Params.default
    ⟨0b0101#4 ++ 0b11#2 ++ 0b00000000000100#14 ++ 0b01101011#8 ++ 0b00000010#8, 9, 0x3000⟩ = .ctrlExchange 0x3000 := by
  decide
theorem test_word_ctrlInvalid_index : decode Params.default ⟨0x540046B03, 0, 0x3000⟩ = .ctrlInvalid 0x40046B03 0x3000 := by
  decide
theorem test_word_ctrlInvalid_magic : decode Params.default ⟨0x540046C00, 0, 0x3000⟩ = .ctrlInvalid 0x40046C00 0x3000 := by
  decide
theorem test_word_ctrlInvalid_dir : decode Params.default ⟨0x580046B00, 0, 0x3000⟩ = .ctrlInvalid 0x80046B00 0x3000 := by
  decide
theorem test_word_ctrlInvalid_size : decode Params.default ⟨0x540086B00, 0, 0x3000⟩ = .ctrlInvalid 0x40086B00 0x3000 := by
  decide
theorem test_word_init : decode Params.default ⟨0b0110#4 ++ 0#32, 9, 9⟩ = .init := by decide
theorem test_word_teardown : decode Params.default ⟨0b0111#4 ++ 0#32, 9, 9⟩ = .teardown := by decide
theorem test_word_reserved_low : decode Params.default ⟨0b1000#4 ++ 0#32, 9, 9⟩ = .reserved 0x8 := by decide
theorem test_word_reserved_high : decode Params.default ⟨0b1111#4 ++ 0#32, 9, 9⟩ = .reserved 0xF := by decide
/-- SET and GET with the same index: `DIR` decides (30_encoding R76). -/
theorem test_word_sharedIndex : decode sharedIndex ⟨0x580046B05, 0, 0x3000⟩ = .ctrlGet 0x3000 := by decide
/-- `LEN_W` and `HADDR_W` bits of the operand fields, and a `SIZE` of 2 bytes (30_encoding R70, R76). -/
theorem test_word_narrow : decode narrow ⟨0x200000000, 0x111, 0x11000⟩ = .read 0x11 0x1000 ∧
    decode narrow ⟨0x540026B00, 0, 0x3000⟩ = .ctrlSet 0x3000 := by decide
/-- The response word: STATUS above 64 bits of VALUE, and the codes (30_encoding R74, 60_exceptions R200). -/
theorem test_response_word : ([.ok, .invalidCommand, .badAddress, .interrupted, .resourceUnavailable].map
    fun st => responseWord ⟨.read, st, 17⟩) =
      [0x00000000000000011#67, 0x10000000000000011#67, 0x20000000000000011#67, 0x30000000000000011#67,
        0x40000000000000011#67] := by decide
theorem test_table_word : decodeTableWord 40 0x540046B00 = some (.ctrlSet 0) := by decide
theorem test_table_word_too_wide : decodeTableWord 40 0x1000000000 = none := by decide

/-! ### The Event Buffer's index functions, the filter and the line (95_test_vectors 2.1, 2.2, 2.4) -/

theorem test_advance : [advance Params.default 0 8, advance Params.default 4080 8, advance Params.default 4088 8,
    advance Params.default 8 4088, advance Params.default 16 0, advance small 24 8] = [8, 4088, 0, 0, 16, 0] := by decide
theorem test_prev : [prev Params.default 8, prev Params.default 0, prev Params.default 4088, prev small 0] =
    [0, 4088, 4080, 24] := by decide
theorem test_available : [available Params.default 8 0, available Params.default 8 8, available Params.default 0 8,
    available Params.default 16 4088, available Params.default 4088 16, available small 8 24, available small 24 0] =
    [8, 0, 4088, 8, 4072, 8, 24] := by decide
/-- VD1, VD3 to VD5. -/
theorem test_admits : [admits 0 { one with dblValid := false }, admits 110 one, admits 119 one, admits 120 one] =
    [true, false, false, true] := by decide
/-- VD8 to VD10. -/
theorem test_admits_wraps : [admits 5 { one with dblLast := 0xFFFFFFFFFFFFFFF6 },
    admits 10 { one with dblLast := 0xFFFFFFFFFFFFFFF6 }, admits 50 one] = [false, true, true] := by decide
/-- VF2. -/
theorem test_fmt_pads : fmt Params.default 100 = List.replicate 13 0x30 ++ [0x31, 0x30, 0x30, 0x0A] := by decide
/-- VF1, VF3 to VF5: the lengths. -/
theorem test_fmt_lengths : [(fmt Params.default 0).length, (fmt Params.default 9999999999999999).length,
    (fmt Params.default 10000000000000000).length, (fmt Params.default 0xFFFFFFFFFFFFFFFF).length] = [17, 17, 18, 21] := by
  decide
/-- VF5: the first and the last characters. -/
theorem test_fmt_max : (fmt Params.default 0xFFFFFFFFFFFFFFFF).take 4 = [0x31, 0x38, 0x34, 0x34] ∧
    (fmt Params.default 0xFFFFFFFFFFFFFFFF).drop 18 = [0x31, 0x35, 0x0A] := by decide

/-! ### One step of each operation -/

/-- VE1. -/
theorem test_edge_ready : nextAnd (exec .edge one) (fun t => t.irqPending && t.responses == []) = true := by decide
/-- VE3. -/
theorem test_edge_off : isNext (exec .edge State.reset) State.reset = true := by decide
/-- VE4. -/
theorem test_tick : nextAnd (exec (.tick 10) { one with ticks := 100 }) (fun t => t.ticks == 110) = true := by decide
/-- VE5. -/
theorem test_tick_wraps : nextAnd (exec (.tick 1) { one with ticks := 0xFFFFFFFFFFFFFFFF })
    (fun t => t.ticks == 0) = true := by decide
/-- VE9. -/
theorem test_capture_wraps : nextAnd (captureStep (edgeAt 5000 lastSlot)) (fun t =>
    t.head == 0 && t.dblLast == 5000 && !t.irqPending &&
      (List.range 8).map (fun i => bufByte t (4088 + i)) == [0x88, 0x13, 0, 0, 0, 0, 0, 0]) = true := by decide
/-- VE8. -/
theorem test_capture_rejected : isNext (captureStep (edgeAt 110 one)) { one with ticks := 110 } = true := by decide
/-- VE12. -/
theorem test_capture_not_enabled : refusedBy (captureStep one) (.notEnabled .capture) = true := by decide
/-- VR1. -/
theorem test_read : nextAnd (exec (.read 17 0x1000) one) (fun t => t.tail == 8 &&
    hmemLoad t.cfg t.hmem 0x1000 18 == List.replicate 13 0x30 ++ [0x31, 0x30, 0x30, 0x0A, 0x00] &&
      t.responses == [⟨.read, .ok, 17⟩]) = true := by decide
/-- VR10. -/
theorem test_read_wrapped : nextAnd (exec (.read 17 0x1000) wrapped) (fun t => t.tail == 0 &&
    (hmemLoad t.cfg t.hmem 0x1000 17).drop 13 == [0x31, 0x30, 0x30, 0x0A]) = true := by decide
/-- VR9, with the record at 130. -/
theorem test_complete : nextAnd (completeStep (waiting (stateAt Params.default 16 8 130))) (fun t => t.tail == 16 &&
    t.rdState == .idle && (hmemLoad t.cfg t.hmem 0x1000 17).drop 13 == [0x31, 0x33, 0x30, 0x0A] &&
      t.responses == [⟨.read, .ok, 17⟩]) = true := by decide
/-- VR7. -/
theorem test_cancel_waiting : nextAnd (exec .cancel (waiting empty)) (fun t => t.rdState == .idle && t.tail == 8 &&
    t.responses == [⟨.read, .interrupted, 0⟩, ⟨.cancel, .ok, 0⟩]) = true := by decide
/-- VR8. -/
theorem test_cancel_idle :
    isNext (exec .cancel empty) { empty with responses := [⟨.cancel, .ok, 0⟩] } = true := by decide
/-- VM1. -/
theorem test_write : nextAnd (exec (.write 5 0x2000)
    { one with hmem := hmemStore Params.default [] 0x2000 [0x68, 0x65, 0x6C, 0x6C, 0x6F], msg := List.replicate 64 0xFF })
    (fun t => t.msg == [0x68, 0x65, 0x6C, 0x6C, 0x6F] ++ List.replicate 59 0 && t.msgLen == 5 &&
      t.responses == [⟨.write, .ok, 5⟩]) = true := by decide
/-- VM2: the answer is the length asked for. -/
theorem test_write_truncates : nextAnd (exec (.write 100 0x2000) one)
    (fun t => t.msgLen == 64 && t.msg.length == 64 && t.responses == [⟨.write, .ok, 100⟩]) = true := by decide
/-- VK1. -/
theorem test_ctrlSet : nextAnd (exec (.ctrlSet 0x3000) { one with hmem := hmemStore Params.default [] 0x3000 [5, 0, 0, 0] })
    (fun t => t.ctrlValue == 5) = true := by decide
/-- VK13: the check fails. -/
theorem test_ctrlSet_inaccessible : nextAnd (exec (.ctrlSet 0x3000)
    { one with ctrlValue := 10, draws := { one.draws with accToBlock := false } })
    (fun t => t.ctrlValue == 10 && t.responses == [⟨.ctrl, .badAddress, 0⟩]) = true := by decide
/-- A value whose bytes all differ: the byte order of GET (20_memory R59). -/
theorem test_ctrlGet : nextAnd (exec (.ctrlGet 0x3000) { one with ctrlValue := 0x04030201 })
    (fun t => hmemLoad t.cfg t.hmem 0x3000 4 == [1, 2, 3, 4]) = true := by decide
/-- Addresses are modulo `2^64` (20_memory R55). -/
theorem test_ctrlGet_wraps : nextAnd (exec (.ctrlGet 0xFFFFFFFFFFFFFFFE) { one with ctrlValue := 0x04030201 })
    (fun t => t.hmem == [(0, 3), (1, 4), (0xFFFFFFFFFFFFFFFE, 1), (0xFFFFFFFFFFFFFFFF, 2)]) = true := by decide
/-- A 16-bit ControlValue and 16-bit addresses (00_scope R10, 20_memory R55, R59; log entry 12). -/
theorem test_ctrlGet_narrow : nextAnd (exec (.ctrlGet 0xFFFF) { stateAt narrow 8 0 100 with ctrlValue := 0x0201 })
    (fun t => t.hmem == [(0, 2), (0xFFFF, 1)]) = true := by decide
/-- The other byte order (93_implementation_defined I10; log entry 13). -/
theorem test_ctrlSet_big : nextAnd (exec (.ctrlSet 0x3000)
    { one with cfg := { one.cfg with hostEndian := .big }, hmem := hmemStore Params.default [] 0x3000 [1, 2, 3, 4] })
    (fun t => t.ctrlValue == 0x01020304) = true := by decide
/-- VK3. -/
theorem test_ctrlExchange : nextAnd (exec (.ctrlExchange 0x3000)
    { one with ctrlValue := 7, hmem := hmemStore Params.default [] 0x3000 [5, 0, 0, 0] })
    (fun t => t.ctrlValue == 10 && hmemLoad t.cfg t.hmem 0x3000 4 == [0x0A, 0, 0, 0]) = true := by decide
/-- VK7. -/
theorem test_ctrlExchange_wraps : nextAnd (exec (.ctrlExchange 0x3000)
    { one with hmem := hmemStore Params.default [] 0x3000 [0, 0, 0, 0xC0] }) (fun t => t.ctrlValue == 0x80000000) = true := by decide
/-- VK8. -/
theorem test_ctrlInvalid : isNext (exec (.ctrlInvalid 0x40046B03 0x3000) { one with ctrlValue := 10 })
    { one with ctrlValue := 10, responses := [⟨.ctrl, .invalidCommand, 0⟩] } = true := by decide
/-- VL1. -/
theorem test_init : nextAnd (exec .init State.reset) (fun t => t.life == .ready && t.head == 0 && t.tail == 0 &&
    !t.dblValid && t.responses == [⟨.init, .ok, 0⟩]) = true := by decide
/-- VL3. -/
theorem test_init_fails : nextAnd (exec .init { State.reset with draws := { Draws.allow with okI := false } })
    (fun t => t.life == .off && t.responses == [⟨.init, .resourceUnavailable, 0⟩]) = true := by decide
/-- VL6. -/
theorem test_teardown : nextAnd (exec .teardown (edgeAt 110 one))
    (fun t => t.life == .off && !t.irqPending && t.responses == [⟨.teardown, .ok, 0⟩]) = true := by decide
/-- VL7. -/
theorem test_teardown_waiting :
    isNext (exec .teardown (waiting one)) { waiting one with refused := true } = true := by decide
/-- VX7. -/
theorem test_reserved : isNext (exec (.reserved 0x8) one) { one with refused := true } = true := by decide
/-- The step runs the request placed by withFetchWord. -/
theorem test_step_init : nextAnd (step (State.reset.withFetchWord 40 0x600000000)) (fun t => t.life == .ready) = true := by
  decide

/-! ### Witnesses: what meets the hypotheses of each obligation

Where a hypothesis is that a step answers a next state, the witness is that state's existence. -/

/-! #### Decoding -/

theorem witness_DecodeEncodeRoundTrip : WellFormed sharedIndex (.ctrlSet 0x3000) = true ∧
    WellFormed sharedIndex (.ctrlGet 0x3000) = true ∧ WellFormed Params.default (.reserved 0xF) = true ∧
    WellFormed Params.default (.ctrlInvalid 0 0xFFFFFFFFFFFFFFFF) = true ∧ WellFormed narrow (.read 0xFF 0xFFFF) = true := by
  decide
theorem witness_ValidCommandWords : decodeCmd Params.default 0x40046B00 ≠ .invalid ∧
    decodeCmd Params.default 0x80046B01 ≠ .invalid ∧ decodeCmd Params.default 0xC0046B02 ≠ .invalid ∧
    decodeCmd sharedIndex 0x80046B05 ≠ .invalid ∧ decodeCmd narrow 0x40026B00 ≠ .invalid ∧
    decodeCmd Params.default 0x40046B03 = .invalid := by decide
theorem witness_DecodeIgnoresCmd : (0x0#4 ≠ 5) ∧ (0x4#4 ≠ 5) ∧ (0x6#4 ≠ 5) ∧ (0xF#4 ≠ 5) := by decide
theorem witness_ReservedOpIsRefused : (0x800000000 : ReqWord).getLsbD 35 = true ∧
    (0xF00000000 : ReqWord).getLsbD 35 = true := by decide

/-! #### The step and the invariant -/

theorem witness_StepRunsPresentedRequest : one.cfg.Ok ∧
    (moving (.request ⟨0x200000000, 17, 0x1000⟩) one).moves = ⟨.request ⟨0x200000000, 17, 0x1000⟩, Draws.allow⟩ :: [] := by
  decide
theorem witness_StepTakesOtherMoves : one.cfg.Ok ∧
    (moving (.auto .capture) one).moves = ⟨.auto .capture, Draws.allow⟩ :: [] ∧
    (moving (.auto .complete) one).moves = ⟨.auto .complete, Draws.allow⟩ :: [] ∧
    (moving (.hostStore 0x1000 7) one).moves = ⟨.hostStore 0x1000 7, Draws.allow⟩ :: [] ∧ one.moves = [] := by decide
/-- The right side of the statement, for a configuration. -/
abbrev breaksR11 (p : Params) : Prop :=
  ¬((State.powerOn p).cfg.R = 8 ∧ (State.powerOn p).cfg.C % (State.powerOn p).cfg.R = 0 ∧
    2 ≤ (State.powerOn p).cfg.C / (State.powerOn p).cfg.R ∧ (State.powerOn p).cfg.minInterval < 2 ^ (State.powerOn p).cfg.tsW)
/-- Each constraint of R11 broken by itself. -/
theorem witness_BadConfigurationIsRefused : breaksR11 { Params.default with R := 4 } ∧
    breaksR11 { Params.default with C := 20 } ∧ breaksR11 { Params.default with C := 8 } ∧
    breaksR11 { Params.default with minInterval := 2 ^ 64 } := by decide
theorem witness_TableWordRunsNext : State.reset.cfg = Params.default ∧
    decodeTableWord 40 0x600000000 = some .init ∧ decodeTableWord 40 0x5C0046B02 = some (.ctrlExchange 0) := by decide
theorem witness_PowerOnHasInv : Params.default.Ok ∧ small.Ok ∧ tiny.Ok ∧ narrow.Ok ∧ noCtrl.Ok ∧ sharedIndex.Ok := by decide
theorem witness_StepKeepsInv : Inv (moving (.request ⟨0x200000000, 17, 0x1000⟩) one) ∧
    (∃ t, step (moving (.request ⟨0x200000000, 17, 0x1000⟩) one) = .next t ∧ (t.tail == 8) = true) ∧
    Inv (moving (.auto .capture) (edgeAt 120 lastSlot)) ∧
    ∃ t, step (moving (.auto .capture) (edgeAt 120 lastSlot)) = .next t ∧ (t.head == 0) = true :=
  ⟨inv_moving inv_one _, exists_next (by decide), inv_moving (inv_edgeAt inv_lastSlot rfl _) _, exists_next (by decide)⟩
theorem witness_AutonomousStepsRunWhenEnabled : Inv (edgeAt 120 one) ∧ captureEnabled (edgeAt 120 one) ∧
    Inv (waiting wrapped) ∧ completeEnabled (waiting wrapped) ∧ ¬captureEnabled one ∧ ¬completeEnabled one :=
  ⟨inv_edgeAt inv_one rfl _, by decide, inv_waiting inv_wrapped rfl, by decide, by decide, by decide⟩

/-! #### Environment and capture -/

theorem witness_EdgeSetsPending : one.life = .ready ∧ State.reset.life = .off := by decide
theorem witness_TickAddsModulo : ∃ t, exec .init State.reset = .next t ∧ (t.life == .ready) = true := exists_next (by decide)
/-- Not enabled; admitted before any event, at the boundary and at the last slot; rejected just before the boundary. -/
theorem witness_CaptureStepRule :
    (Inv one ∧ ¬(one.life = .ready ∧ one.irqPending = true)) ∧
    (Inv (edgeAt 0 initialised) ∧ captureEnabled (edgeAt 0 initialised) ∧ (edgeAt 0 initialised).dblValid = false) ∧
    (Inv (edgeAt 120 lastSlot) ∧ captureEnabled (edgeAt 120 lastSlot) ∧
      20 ≤ ((120#64).toNat + 2 ^ 64 - (100#64).toNat) % 2 ^ 64) ∧
    (Inv (edgeAt 119 one) ∧ captureEnabled (edgeAt 119 one) ∧ (edgeAt 119 one).dblValid = true ∧
      ¬20 ≤ ((119#64).toNat + 2 ^ 64 - (100#64).toNat) % 2 ^ 64) :=
  ⟨⟨inv_one, by decide⟩, ⟨inv_edgeAt inv_initialised rfl _, by decide, rfl⟩,
    ⟨inv_edgeAt inv_lastSlot rfl _, by decide, by decide⟩, inv_edgeAt inv_one rfl _, by decide, rfl, by decide⟩
theorem witness_CaptureWritesOneRecord : Inv (edgeAt 120 lastSlot) ∧
    ∃ t, captureStep (edgeAt 120 lastSlot) = .next t ∧ (t.head != 4088) = true :=
  ⟨inv_edgeAt inv_lastSlot rfl _, exists_next (by decide)⟩
/-- The second event at the same tick and 19 ticks later. -/
theorem witness_DebounceAdmitsOneOfTwo :
    (∃ t, captureStep (edgeAt 120 one) = .next t ∧ (t.dblLast == 120 && t.dblValid && t.cfg == Params.default) = true) ∧
    (∃ t, captureStep (edgeAt 120 (stateAt Params.default 16 0 120)) = .next t ∧ (t.head == 16) = true) ∧
    (∃ t, captureStep (edgeAt 139 (stateAt Params.default 16 0 120)) = .next t ∧ (t.head == 16) = true) ∧
    (139#64 - 120#64).toNat < 20 :=
  ⟨exists_next (by decide), exists_next (by decide), exists_next (by decide), by decide⟩
theorem witness_LapReturnsHead : small.Ok ∧ 0 < small.C ∧ 0 % small.R = 0 ∧ 24 < small.C ∧ 24 % small.R = 0 ∧
    0 < 3 ∧ 3 < small.C / small.R := by decide

/-- The states before two admitted CAPTUREs in a row, in a buffer of two records that reads empty. -/
def beforeLap : Nat → State
  | 0 => edgeAt 120 (stateAt tiny 8 8 100)
  | _ + 1 => edgeAt 140 (captured (edgeAt 120 (stateAt tiny 8 8 100)))

theorem witness_NthCaptureLapsTheBuffer :
    (∀ i < 2, Inv (beforeLap i) ∧ admits (beforeLap i).ticks (beforeLap i) = true ∧
      captureStep (beforeLap i) = .next (captured (beforeLap i))) ∧
    (beforeLap 1).head = (captured (beforeLap 0)).head ∧ (beforeLap 1).tail = (captured (beforeLap 0)).tail ∧
    (beforeLap 1).cfg = (captured (beforeLap 0)).cfg ∧ 2 = (beforeLap 0).cfg.C / (beforeLap 0).cfg.R ∧
    (beforeLap 0).head = (beforeLap 0).tail := by
  have h0 : Inv (beforeLap 0) := inv_edgeAt (inv_stateAt 100 (by decide) (by decide) (by decide) (by decide) (by decide)) rfl _
  refine ⟨fun i hi => ?_, rfl, rfl, rfl, by decide, rfl⟩
  match i, hi with
  | 0, _ => exact ⟨h0, by decide, captureStep_eq (by decide) (by decide)⟩
  | 1, _ => exact ⟨inv_edgeAt (captured_keeps_inv h0 rfl) rfl _, by decide, captureStep_eq (by decide) (by decide)⟩

/-! #### The reader -/

theorem witness_ReadAndCancelRefused : (waiting one).rdState = .wait ∧ State.reset.life = .off := by decide
theorem witness_ReadOnEmptyJoinsWaitSet : empty.life = .ready ∧ empty.rdState = .idle ∧ empty.head = empty.tail := by
  decide
/-- A plain, a wrapped and a just wrapped head, and no bytes while the copy faults. -/
theorem witness_ReadDeliversLatestLine :
    (Inv one ∧ one.life = .ready ∧ one.rdState = .idle ∧ one.head ≠ one.tail ∧ one.draws.writeOk = true) ∧
    (Inv wrapped ∧ wrapped.life = .ready ∧ wrapped.rdState = .idle ∧ wrapped.head ≠ wrapped.tail ∧
      wrapped.draws.writeOk = true) ∧
    (Inv wrappedToZero ∧ wrappedToZero.life = .ready ∧ wrappedToZero.rdState = .idle ∧
      wrappedToZero.head ≠ wrappedToZero.tail ∧ wrappedToZero.draws.writeOk = true) ∧
    (Inv (writeFaults one) ∧ (writeFaults one).life = .ready ∧ (writeFaults one).rdState = .idle ∧
      (writeFaults one).head ≠ (writeFaults one).tail ∧ ((writeFaults one).draws.writeOk = true ∨ 0 = 0)) :=
  ⟨⟨inv_one, by decide⟩, ⟨inv_wrapped, by decide⟩, ⟨inv_wrappedToZero, by decide⟩, inv_writeFaults inv_one, by decide⟩
theorem witness_ReadCopyFaultKeepsTail : Inv (writeFaults one) ∧ (writeFaults one).life = .ready ∧
    (writeFaults one).rdState = .idle ∧ (writeFaults one).head ≠ (writeFaults one).tail ∧
    (writeFaults one).draws.writeOk = false ∧ 1 ≠ 0 := ⟨inv_writeFaults inv_one, by decide⟩
theorem witness_CompleteDeliversStoredRead :
    (Inv (waiting wrapped) ∧ (waiting wrapped).life = .ready ∧ (waiting wrapped).rdState = .wait ∧
      (waiting wrapped).head ≠ (waiting wrapped).tail ∧ (waiting wrapped).draws.writeOk = true) ∧
    (Inv (writeFaults (waitingForNone one)) ∧ (writeFaults (waitingForNone one)).life = .ready ∧
      (writeFaults (waitingForNone one)).rdState = .wait ∧
      (writeFaults (waitingForNone one)).head ≠ (writeFaults (waitingForNone one)).tail ∧
      (writeFaults (waitingForNone one)).rdLen = 0) ∧
    (Inv (writeFaults (waiting one)) ∧ (writeFaults (waiting one)).life = .ready ∧
      (writeFaults (waiting one)).rdState = .wait ∧ (writeFaults (waiting one)).head ≠ (writeFaults (waiting one)).tail ∧
      (writeFaults (waiting one)).draws.writeOk = false ∧ (writeFaults (waiting one)).rdLen ≠ 0) :=
  ⟨⟨inv_waiting inv_wrapped rfl, by decide⟩,
    ⟨inv_writeFaults (joinWaitSet_keeps_inv inv_one rfl (by decide) (by decide)), by decide⟩,
    inv_writeFaults (inv_waiting inv_one rfl), by decide⟩
theorem witness_ReadOfNoBytesStillDrains : Inv (writeFaults one) ∧ (writeFaults one).life = .ready ∧
    (writeFaults one).rdState = .idle ∧ (writeFaults one).head ≠ (writeFaults one).tail :=
  ⟨inv_writeFaults inv_one, by decide⟩
theorem witness_DeliveryMovesTailForward :
    (Inv wrapped ∧ wrapped.life = .ready ∧ wrapped.head ≠ wrapped.tail ∧
      ∃ t, exec (.read 17 0x1000) wrapped = .next t ∧ (t.responses == wrapped.responses ++ [⟨.read, .ok, 17⟩]) = true) ∧
    (Inv (waiting one) ∧ (waiting one).life = .ready ∧ (waiting one).head ≠ (waiting one).tail ∧
      ∃ t, completeStep (waiting one) = .next t ∧
        (t.responses == (waiting one).responses ++ [⟨.read, .ok, 17⟩]) = true) :=
  ⟨⟨inv_wrapped, rfl, by decide, exists_next (by decide)⟩, inv_waiting inv_one rfl, rfl, by decide,
    exists_next (by decide)⟩
theorem witness_WrappedReadDeliversTwice :
    (Inv wrapped ∧ wrapped.life = .ready ∧ wrapped.rdState = .idle ∧ wrapped.head < wrapped.tail ∧
      wrapped.draws.writeOk = true ∧ 0 < wrapped.head) ∧
    (Inv wrappedToZero ∧ wrappedToZero.life = .ready ∧ wrappedToZero.rdState = .idle ∧
      wrappedToZero.head < wrappedToZero.tail ∧ wrappedToZero.draws.writeOk = true) :=
  ⟨⟨inv_wrapped, by decide⟩, inv_wrappedToZero, by decide⟩
theorem witness_CancelInterruptsWaitingRead : (waiting one).life = .ready ∧ (waiting one).rdState = .wait ∧
    one.life = .ready ∧ one.rdState = .idle ∧ State.reset.life = .off := by decide
theorem witness_CompleteAndCancelEitherOrder : Inv (waiting one) ∧ (waiting one).life = .ready ∧
    (waiting one).rdState = .wait ∧ (waiting one).head ≠ (waiting one).tail := ⟨inv_waiting inv_one rfl, by decide⟩
theorem witness_WaitingReadStaysOutstanding :
    Inv (moving (.auto .capture) (edgeAt 120 (waiting empty))) ∧
    (moving (.auto .capture) (edgeAt 120 (waiting empty))).rdState = .wait ∧
    (∃ t, step (moving (.auto .capture) (edgeAt 120 (waiting empty))) = .next t ∧ (t.head == 16) = true) ∧
    nextRequest (moving (.auto .capture) (edgeAt 120 (waiting empty))) ≠ some .cancel ∧
    nextAuto (moving (.auto .capture) (edgeAt 120 (waiting empty))) ≠ some .complete :=
  ⟨inv_moving (inv_edgeAt (inv_waiting inv_empty rfl) rfl _) _, rfl, exists_next (by decide), by decide, by decide⟩
theorem witness_CompleteEqualsFreshRead : Inv (writeFaults (waiting wrapped)) ∧
    (writeFaults (waiting wrapped)).life = .ready ∧ (writeFaults (waiting wrapped)).rdState = .wait ∧
    (writeFaults (waiting wrapped)).head ≠ (writeFaults (waiting wrapped)).tail :=
  ⟨inv_writeFaults (inv_waiting inv_wrapped rfl), by decide⟩
/-- At the debounce boundary, and with the head at the last slot. -/
theorem witness_BlockedReadGetsNextEvent :
    Inv (edgeAt 120 (stateAt Params.default 4088 4088 100)) ∧
    (edgeAt 120 (stateAt Params.default 4088 4088 100)).life = .ready ∧
    (edgeAt 120 (stateAt Params.default 4088 4088 100)).rdState = .idle ∧
    (edgeAt 120 (stateAt Params.default 4088 4088 100)).head = (edgeAt 120 (stateAt Params.default 4088 4088 100)).tail ∧
    (edgeAt 120 (stateAt Params.default 4088 4088 100)).irqPending = true ∧
    admits 120 (edgeAt 120 (stateAt Params.default 4088 4088 100)) = true ∧
    (edgeAt 120 (stateAt Params.default 4088 4088 100)).draws.writeOk = true :=
  ⟨inv_edgeAt (inv_stateAt 100 (by decide) (by decide) (by decide) (by decide) (by decide)) rfl _, by decide⟩
theorem witness_FormattedLineIsDecimal : (∀ b ∈ List.replicate 16 0x30#8, isDigit b) ∧
    max 1 Params.default.fmtDigits < (decimal 10000000000000000).length := by decide
theorem witness_FormattedLineLength : Params.default.fmtDigits = 16 ∧ (9999999999999999#64).toNat < 10 ^ 16 ∧
    10 ^ 16 ≤ (10000000000000000#64).toNat := by decide

/-! #### Control, message and lifecycle -/

/-- A block whose ControlValue has no bits. -/
def oneNoCtrl : State := stateAt noCtrl 8 0 100

theorem witness_CtrlInvalidChangesNothing : one.life = .ready := rfl
theorem witness_CtrlSetStoresInput : oneNoCtrl.life = .ready ∧ oneNoCtrl.cfg.ctrlW = 0 ∧ one.cfg.ctrlW ≠ 0 ∧
    one.life = .ready ∧ one.draws.accToBlock = true ∧ one.draws.readOk = true ∧
    (answering false true true true one).life = .ready ∧
    (answering false true true true one).draws.accToBlock = false ∧
    (answering true true false true one).draws.readOk = false := by decide
theorem witness_CtrlGetReturnsValue : oneNoCtrl.life = .ready ∧ oneNoCtrl.cfg.ctrlW = 0 ∧ one.cfg.ctrlW ≠ 0 ∧
    one.life = .ready ∧ one.draws.accToHost = true ∧ one.draws.writeOk = true ∧
    (answering true false true true one).draws.accToHost = false ∧
    (answering true true true false one).draws.accToHost = true ∧
    (answering true true true false one).draws.writeOk = false := by decide
theorem witness_CtrlExchangeDoublesInput : oneNoCtrl.life = .ready ∧ oneNoCtrl.cfg.ctrlW = 0 ∧ one.cfg.ctrlW ≠ 0 ∧
    one.life = .ready ∧
    one.draws.accToBlock = true ∧ one.draws.accToHost = true ∧ one.draws.readOk = true ∧ one.draws.writeOk = true ∧
    (answering true false true true one).draws.accToHost = false ∧
    (answering true true true false one).draws.accToBlock = true ∧
    (answering true true true false one).draws.readOk = true ∧
    (answering true true true false one).draws.writeOk = false := by decide
theorem witness_CtrlSetThenGet :
    (∃ t, exec (.ctrlSet 0x3000) one = .next t ∧
      (t.responses == one.responses ++ [⟨.ctrl, .ok, 0⟩] && t.ctrlValue == 0 && t.cfg == Params.default) = true) ∧
    Memory.wf one.cfg one.hmem ∧ one.cfg = Params.default ∧ one.ctrlValue = 0 ∧
    one.cfg.ctrlLen ≤ 2 ^ one.cfg.haddrW ∧ one.cfg.ctrlW % 8 = 0 ∧
    ∃ t, exec (.ctrlGet 0xFFFFFFFFFFFFFFFE) one = .next t ∧
      (t.responses == one.responses ++ [⟨.ctrl, .ok, 0⟩]) = true :=
  ⟨exists_next (by decide), by decide, rfl, rfl, by decide, by decide, exists_next (by decide)⟩
theorem witness_ExchangeIgnoresOldValue :
    ∃ t, exec (.ctrlExchange 0x3000) { one with hmem := hmemStore Params.default [] 0x3000 [0, 0, 0, 0xC0] } = .next t ∧
      (t.responses == one.responses ++ [⟨.ctrl, .ok, 0⟩]) = true := exists_next (by decide)
theorem witness_CtrlErrorKeepsValue :
    (∃ t, exec (.ctrlExchange 0x3000) (answering true true true false one) = .next t ∧
      (t.responses == one.responses ++ [⟨.ctrl, .badAddress, 0⟩]) = true) ∧
    (∃ t, exec (.ctrlInvalid 0 0x3000) one = .next t ∧
      (t.responses == one.responses ++ [⟨.ctrl, .invalidCommand, 0⟩]) = true) ∧
    isCtrl (.ctrlExchange 0x3000) = true ∧ isCtrl (.ctrlInvalid 0 0x3000) = true ∧ Status.badAddress ≠ .ok :=
  ⟨exists_next (by decide), exists_next (by decide), by decide⟩
theorem witness_CtrlIndependentOfEventPath : isCtrl (.ctrlExchange 0x3000) = true ∧ isCtrl (.read 17 0x1000) = false ∧
    Instr.read 17 0x1000 ≠ .init ∧ Instr.read 17 0x1000 ≠ .teardown := by decide
/-- Also `MSG_MAX` bytes, and no bytes while the copy faults. -/
theorem witness_WriteReplacesMessage : State.reset.life = .off ∧ one.life = .ready ∧ one.draws.readOk = true ∧
    min 64 one.cfg.msgMax = 64 ∧ 64 < 2 ^ 64 ∧ (answering true true false true one).draws.readOk = false ∧
    min 0 one.cfg.msgMax = 0 ∧ min 5 one.cfg.msgMax ≠ 0 := by decide
theorem witness_InitLeavesInitialState : State.reset.life = .off ∧ State.reset.draws.okB = true ∧
    State.reset.draws.okP = true ∧ State.reset.draws.okI = true ∧ State.reset.draws.okD = true := by decide
theorem witness_InitFailureKeepsNothing : State.reset.life = .off ∧
    ({ State.reset with draws := { Draws.allow with okI := false } } : State).draws.okI = false ∧ one.life = .ready := by
  decide
theorem witness_TeardownForgetsEverything : one.life = .ready ∧ one.rdState = .idle ∧ State.reset.life = .off ∧
    (waiting one).rdState = .wait := by decide
theorem witness_OffStateHidesValues : State.reset.life = .off := rfl
theorem witness_HostRequestsRefusedWhileOff : State.reset.life = .off ∧ needsReady .cancel = true ∧
    needsReady .teardown = true ∧ needsReady (.ctrlInvalid 0 0) = true := by decide

/-! #### Whole-machine rules and frames -/

theorem witness_EachRequestOneResponse :
    (∃ t, exec (.read 17 0x1000) State.reset = .next t ∧ (!State.reset.refused && t.refused) = true) ∧
    (∃ t, exec (.read 17 0x1000) one = .next t ∧ (!one.refused && !t.refused) = true) ∧
    (∃ t, exec .cancel (waiting one) = .next t ∧ (!one.refused && !t.refused) = true) ∧
    (∃ t, captureStep (edgeAt 120 one) = .next t ∧ (t.head == 16) = true) ∧
    ∃ t, completeStep (waiting one) = .next t ∧ (t.tail == 8) = true :=
  ⟨exists_next (by decide), exists_next (by decide), exists_next (by decide), exists_next (by decide),
    exists_next (by decide)⟩
theorem witness_ResponseWordCodes : responseWord ⟨.read, .badAddress, 0⟩ = responseWord ⟨.ctrl, .badAddress, 0⟩ := by decide
theorem witness_ErrorResponsesCarryZero :
    ∃ t, step (moving (.request ⟨0x300000000, 0, 0⟩) (waiting one)) = .next t ∧
      (t.responses == [] ++ [⟨.read, .interrupted, 0⟩, ⟨.cancel, .ok, 0⟩]) = true := exists_next (by decide)
theorem witness_SingleWriterPerField :
    (∃ t, step (moving (.request ⟨0x200000000, 17, 0x1000⟩) one) = .next t ∧ (t.tail == 8) = true) ∧
    nextRequest (moving (.request ⟨0x200000000, 17, 0x1000⟩) one) ≠ some .init ∧
    nextRequest (moving (.request ⟨0x200000000, 17, 0x1000⟩) one) ≠ some .teardown ∧
    nextAuto (moving (.request ⟨0x200000000, 17, 0x1000⟩) one) ≠ some .capture ∧
    (∃ t, step (moving (.auto .capture) (edgeAt 120 one)) = .next t ∧ (t.head == 16) = true) ∧
    nextAuto (moving (.auto .capture) (edgeAt 120 one)) ≠ some .complete ∧
    nextRequest (moving (.auto .capture) (edgeAt 120 one)) = none :=
  ⟨exists_next (by decide), by decide, by decide, by decide, exists_next (by decide), by decide, by decide⟩
theorem witness_WritersOfTheOtherElements :
    (∃ t, step (moving (.request ⟨0x300000000, 0, 0⟩) one) = .next t ∧ (t.tail == 0) = true) ∧
    nextRequest (moving (.request ⟨0x300000000, 0, 0⟩) one) = some .cancel ∧
    ∃ t, step (moving (.request ⟨0x300000000, 0, 0⟩) { one with refused := true }) = .next t ∧ t.refused = true :=
  ⟨exists_next (by decide), by decide, exists_next (by decide)⟩
/-- The bytes around the stored ranges: `0x0FFF` and `0x1011` for a line of 17 bytes, `0x2FFF` and `0x3004` for 4. -/
theorem witness_StoringStepsFrame :
    (∃ t, exec (.read 17 0x1000) one = .next t ∧ (t.tail == 8) = true) ∧
    (∃ t, completeStep (waiting one) = .next t ∧ (t.tail == 8) = true) ∧
    (∃ t, exec (.ctrlGet 0x3000) one = .next t ∧ (t.tail == 0) = true) ∧
    (∃ t, exec (.ctrlExchange 0x3000) one = .next t ∧ (t.tail == 0) = true) ∧ Memory.wf one.cfg one.hmem ∧
    (∀ k < 17, hostAddr one.cfg 0x0FFF ≠ hostAddr one.cfg (0x1000 + k)) ∧
    (∀ k < 17, hostAddr one.cfg 0x1011 ≠ hostAddr one.cfg (0x1000 + k)) ∧
    (∀ k < 4, hostAddr one.cfg 0x2FFF ≠ hostAddr one.cfg (0x3000 + k)) ∧
    ∀ k < 4, hostAddr one.cfg 0x3004 ≠ hostAddr one.cfg (0x3000 + k) :=
  ⟨exists_next (by decide), exists_next (by decide), exists_next (by decide), exists_next (by decide), by decide⟩
theorem witness_OtherStepsKeepHostMemory :
    (∃ t, exec (.ctrlSet 0x3000) one = .next t ∧ (t.ctrlValue == 0) = true) ∧
    (∀ n dst, Instr.ctrlSet 0x3000 ≠ .read n dst) ∧ (∀ a, Instr.ctrlSet 0x3000 ≠ .ctrlGet a) ∧
    (∀ a, Instr.ctrlSet 0x3000 ≠ .ctrlExchange a) ∧
    ∃ t, captureStep (edgeAt 120 one) = .next t ∧ (t.head == 16) = true :=
  ⟨exists_next (by decide), (by intros; simp), (by intros; simp), (by intros; simp), exists_next (by decide)⟩

end Sys2Proof.Tests
end

section
/-! SUPPORT. One step of the machine (00_scope R11, R14, R17): what it does for each head of the list of moves, and the only
two reasons it can refuse for, a configuration that breaks R11 and an autonomous step that is not enabled. -/

namespace Sys2Proof.Machine

/-! ### The step for each head of the list of moves -/

theorem step_of_moves_nil {s : State} (hok : s.cfg.Ok) (hm : s.moves = []) : step s = .next s := by
  rw [step, nextStep, if_pos hok, hm]

theorem step_of_moves_cons {s : State} {m : Move} {rest : List Move} (hok : s.cfg.Ok) (hm : s.moves = m :: rest) :
    step s = runMove m.what (takeMove m rest s) := by
  rw [step, nextStep, if_pos hok, hm]

theorem step_of_badConfiguration {s : State} (hbad : ¬s.cfg.Ok) : step s = .refused .badConfiguration := by
  rw [step, nextStep, if_neg hbad]

/-- Settles O9: a move that is a request is carried out by executing the decoded operation. -/
theorem stepRunsPresentedRequest : Obligations.StepRunsPresentedRequest :=
  fun _ _ _ _ hok => step_of_moves_cons hok

/-- Settles O10, by the head of the list of moves. -/
theorem stepTakesOtherMoves : Obligations.StepTakesOtherMoves :=
  fun _ _ _ hok =>
    ⟨step_of_moves_cons hok, step_of_moves_cons hok, fun _ _ => step_of_moves_cons hok, step_of_moves_nil hok⟩

/-! ### No operation of the opcode table is refused by the model -/

theorem deliver_ne_refused (n dst : Nat) (s : State) (e : Refusal) : deliver n dst s ≠ .refused e := by
  unfold deliver
  split <;> simp

theorem execEdge_ne_refused (s : State) (e : Refusal) : execEdge s ≠ .refused e := by
  unfold execEdge
  split <;> simp

theorem execRead_ne_refused (n dst : Nat) (s : State) (e : Refusal) : execRead n dst s ≠ .refused e := by
  unfold execRead
  split
  · simp
  · split
    · simp
    · exact deliver_ne_refused n dst s e

theorem execCancel_ne_refused (s : State) (e : Refusal) : execCancel s ≠ .refused e := by
  unfold execCancel
  split
  · simp
  · split <;> simp

theorem execWrite_ne_refused (n src : Nat) (s : State) (e : Refusal) : execWrite n src s ≠ .refused e := by
  unfold execWrite
  split
  · simp
  · split <;> simp

/-- The checks in front of a command refuse nothing that the command itself does not. -/
theorem ctrlChecked_ne_refused (d : BitVec 2) (arg : Nat) {f : State → Result} {s : State} {e : Refusal}
    (hf : f s ≠ .refused e) : ctrlChecked d arg f s ≠ .refused e := by
  rcases ctrlChecked_cases d arg f s with ⟨_, hc⟩ | ⟨_, hc⟩ | ⟨_, hc⟩ <;> rw [hc]
  · simp
  · simp
  · exact hf

theorem ctrlCopyOut_ne_refused (arg v : Nat) (commit : State → State) (s : State) (e : Refusal) :
    ctrlCopyOut arg v commit s ≠ .refused e := by
  unfold ctrlCopyOut ctrlError
  split <;> simp

theorem execCtrlSet_ne_refused (arg : Nat) (s : State) (e : Refusal) : execCtrlSet arg s ≠ .refused e := by
  refine ctrlChecked_ne_refused dirToBlock arg ?_
  unfold ctrlError
  split <;> simp

theorem execCtrlGet_ne_refused (arg : Nat) (s : State) (e : Refusal) : execCtrlGet arg s ≠ .refused e :=
  ctrlChecked_ne_refused dirToHost arg (ctrlCopyOut_ne_refused arg s.ctrlValue id s e)

theorem execCtrlExchange_ne_refused (arg : Nat) (s : State) (e : Refusal) : execCtrlExchange arg s ≠ .refused e := by
  refine ctrlChecked_ne_refused dirBoth arg ?_
  dsimp only
  split
  · simp [ctrlError]
  · exact ctrlCopyOut_ne_refused _ _ _ s e

theorem execCtrlInvalid_ne_refused (c : CmdWord) (arg : Nat) (s : State) (e : Refusal) :
    execCtrlInvalid c arg s ≠ .refused e := by
  unfold execCtrlInvalid ctrlError
  split <;> simp

theorem execInit_ne_refused (s : State) (e : Refusal) : execInit s ≠ .refused e := by
  unfold execInit initFailed
  repeat' split
  all_goals simp

theorem execTeardown_ne_refused (s : State) (e : Refusal) : execTeardown s ≠ .refused e := by
  unfold execTeardown
  split <;> simp

/-- Every operation has a meaning in every state: a request the spec calls refused answers a next state (00_scope R15). -/
theorem exec_ne_refused (i : Instr) (s : State) (e : Refusal) : exec i s ≠ .refused e := by
  cases i with
  | edge => exact execEdge_ne_refused s e
  | tick k => exact nofun
  | read n dst => exact execRead_ne_refused n dst s e
  | cancel => exact execCancel_ne_refused s e
  | write n src => exact execWrite_ne_refused n src s e
  | ctrlSet arg => exact execCtrlSet_ne_refused arg s e
  | ctrlGet arg => exact execCtrlGet_ne_refused arg s e
  | ctrlExchange arg => exact execCtrlExchange_ne_refused arg s e
  | ctrlInvalid c arg => exact execCtrlInvalid_ne_refused c arg s e
  | init => exact execInit_ne_refused s e
  | teardown => exact execTeardown_ne_refused s e
  | reserved op => exact nofun

/-! ### The refusals of the autonomous steps and of the step -/

theorem captureRecord_ne_refused (now : Timestamp) (s : State) (e : Refusal) : captureRecord now s ≠ .refused e := by
  unfold captureRecord
  split <;> simp

/-- An autonomous step is refused only for not being enabled. -/
theorem autoStep_refused {a : AutoStep} {s : State} {e : Refusal} (h : autoStep a s = .refused e) :
    e = .notEnabled a := by
  cases a with
  | capture =>
    change captureStep s = .refused e at h
    by_cases he : captureEnabled s
    · rw [captureStep_enabled he] at h
      split at h
      · exact absurd h (captureRecord_ne_refused _ _ e)
      · cases h
    · rw [captureStep, if_neg he] at h
      exact (Host.Outcome.refused.inj h).symm
  | complete =>
    change completeStep s = .refused e at h
    unfold completeStep at h
    split at h
    · exact absurd h (deliver_ne_refused _ _ s e)
    · exact (Host.Outcome.refused.inj h).symm

/-- A move is refused only as an autonomous step that is not enabled. -/
theorem runMove_refused {w : MoveKind} {s : State} {e : Refusal} (h : runMove w s = .refused e) :
    ∃ a, w = .auto a ∧ e = .notEnabled a := by
  cases w with
  | request r => exact absurd h (exec_ne_refused _ s e)
  | auto a => exact ⟨a, rfl, autoStep_refused h⟩
  | hostStore addr b => cases h

/-- With a good configuration no step is refused for it. -/
theorem step_ne_badConfiguration {s : State} (hok : s.cfg.Ok) : step s ≠ .refused .badConfiguration := by
  intro h
  cases hm : s.moves with
  | nil =>
    rw [step_of_moves_nil hok hm] at h
    cases h
  | cons m rest =>
    rw [step_of_moves_cons hok hm] at h
    obtain ⟨a, _, he⟩ := runMove_refused h
    cases he

/-- Settles O11: a configuration that breaks R11 is refused before any move, and no move is refused for that reason. -/
theorem badConfigurationIsRefused : Obligations.BadConfigurationIsRefused := by
  intro s
  change step s = .refused .badConfiguration ↔ ¬s.cfg.Ok
  exact ⟨fun h hok => step_ne_badConfiguration hok h, step_of_badConfiguration⟩

end Sys2Proof.Machine
end

section
/-! SUPPORT. The state at power-on (10_state R41, 70_reset R230): the values the spec gives it, and that it is a good state. -/

namespace Sys2Proof.Machine

/-- Power-on is a good state: while OFF the clauses on the buffer say nothing, and the display string is `MSG_MAX` zeros. -/
theorem powerOn_inv {p : Params} (hok : p.Ok) : Inv (State.powerOn p) where
  cfgOk := hok
  hmemWf := ⟨List.Pairwise.nil, nofun⟩
  bufRising := List.Pairwise.nil
  bufBound := nofun
  msgLength := List.length_replicate
  msgLenLe := Nat.zero_le _
  msgRest _ hb := List.eq_of_mem_replicate hb
  ctrlBits := Nat.two_pow_pos _
  rdLenBits := Nat.two_pow_pos _
  rdAddrBits := Nat.two_pow_pos _
  headLt := nofun
  tailLt := nofun
  headAligned := nofun
  tailAligned := nofun
  offNoEdge _ := rfl
  offIdle _ := rfl
  unsetEmpty := nofun
  latest := nofun

/-- Settles O13: each clause of the invariant at power-on. -/
theorem powerOnHasInv : Obligations.PowerOnHasInv := fun _ => powerOn_inv

/-- Settles O15: the values are those `State.powerOn` is defined with. -/
theorem powerOnValues : Obligations.PowerOnValues := fun _ => ⟨rfl, rfl, rfl, rfl, rfl, rfl⟩

end Sys2Proof.Machine
end

section
/-! SUPPORT. When the autonomous steps CAPTURE and COMPLETE take their step, and what CAPTURE then leaves (10_state R22,
41_debounce R110, 42_capture R124 to R127, 43_reader R146). -/

namespace Sys2Proof.Machine

/-! ### In a good state nothing but the enabling condition holds a step -/

/-- In a good state that is ready, the head is a legal offset for a record. -/
theorem Inv.head_access {s : State} (h : Inv s) (hl : s.life = .ready) : bufAccessOk s.cfg s.head s.cfg.R :=
  Machine.head_access h.cfgOk (h.headLt hl) (h.headAligned hl)

theorem captureStep_of_not_enabled {s : State} (he : ¬captureEnabled s) :
    captureStep s = .refused (.notEnabled .capture) := if_neg he

/-- In a good state an enabled CAPTURE takes its step. -/
theorem captureStep_of_enabled {s : State} (h : Inv s) (he : captureEnabled s) :
    captureStep s = .next (if admits s.ticks s = true then captured s else clearEdge s) :=
  captureStep_eq he (h.head_access he.1)

/-- A delivery whose record can be read takes its step. -/
theorem deliver_of_bufRead {s : State} {bytes : List Byte} (hb : bufRead (prev s.cfg s.head) s.cfg.R s = some bytes)
    (n dst : Nat) : deliver n dst s = .next (deliverBytes (deliveredBytes s.cfg n (recordValue bytes)) dst s) := by
  unfold deliver
  rw [hb]

/-- In a good state an enabled COMPLETE delivers the last admitted timestamp to the stored operands. -/
theorem completeStep_of_enabled {s : State} (h : Inv s) (he : completeEnabled s) :
    completeStep s = .next (deliverBytes
      (deliveredBytes s.cfg s.rdLen (recordValue (leBytes 8 s.dblLast.toNat))) s.rdAddr s) := by
  obtain ⟨hl, -, hne⟩ := id he
  rw [completeStep, if_pos he, deliver_of_bufRead (h.bufRead_prev hl hne)]

/-- Settles O16: a step that is taken was enabled, and in a good state the record it needs is a legal buffer access. -/
theorem autonomousStepsRunWhenEnabled : Obligations.AutonomousStepsRunWhenEnabled := fun _ h =>
  ⟨⟨fun ⟨_, ht⟩ => (captureStep_cases ht).1, fun he => ⟨_, captureStep_of_enabled h he⟩⟩,
    ⟨fun ⟨_, ht⟩ => (completeStep_cases ht).1, fun he => ⟨_, completeStep_of_enabled h he⟩⟩⟩

/-! ### The rule of CAPTURE -/

/-- The debounce test in numbers: no event admitted yet, or at least `MIN_INTERVAL` ticks since the last one, modulo `2^64`
(41_debounce R110). -/
theorem admits_iff (now : Timestamp) (s : State) : admits now s = true ↔
    s.dblValid = false ∨ s.cfg.minInterval ≤ (now.toNat + 2 ^ 64 - s.dblLast.toNat) % 2 ^ 64 := by
  have hsub : (now - s.dblLast).toNat = (now.toNat + 2 ^ 64 - s.dblLast.toNat) % 2 ^ 64 := by
    rw [BitVec.toNat_sub]
    have := s.dblLast.isLt
    congr 1
    omega
  simp only [admits, Bool.or_eq_true, Bool.not_eq_true', decide_eq_true_eq, hsub]

/-- An advance by one record wraps exactly at the capacity (40_event_buffer R100). -/
theorem advance_record_eq {p : Params} {i : Nat} (ha : bufAccessOk p i p.R) :
    advance p i p.R = if i + p.R = p.C then 0 else i + p.R := by
  obtain ⟨-, -, hle⟩ := ha
  unfold advance
  split <;> split <;> omega

/-- Settles O20, by the enabling condition and then by the debounce test. -/
theorem captureStepRule : Obligations.CaptureStepRule := by
  intro s h
  refine ⟨captureStep_of_not_enabled, fun hl hp => ?_⟩
  rw [captureStep_of_enabled h ⟨hl, hp⟩, ← admits_iff]
  refine ⟨fun ha => ?admitted, fun ha => ?rejected⟩
  case admitted =>
    rw [if_pos ha, captured, advance_record_eq (h.head_access hl)]
    rfl
  case rejected =>
    rw [if_neg ha]
    rfl

end Sys2Proof.Machine
end

section
/-! SUPPORT. What the operations do while OFF, and that the elements which hold no value there do not matter to them
(10_state R24, R41, 46_lifecycle R192, 70_reset R232, R233). -/

namespace Sys2Proof.Machine

/-! ### The operations while OFF -/

/-- An operation that may not be presented while OFF is refused there (70_reset R232, R233). -/
theorem exec_needsReady_of_off {i : Instr} {s : State} (hi : needsReady i = true) (hl : s.life = .off) :
    exec i s = .next (refuse s) := by
  cases i with
  | edge => cases hi
  | tick k => cases hi
  | read n dst => exact if_pos (.inl hl)
  | cancel => exact if_pos hl
  | write n src => exact if_pos hl
  | ctrlSet arg => exact if_pos hl
  | ctrlGet arg => exact if_pos hl
  | ctrlExchange arg => exact if_pos hl
  | ctrlInvalid c arg => exact if_pos hl
  | init => cases hi
  | teardown => exact if_pos (.inl hl)
  | reserved op => cases hi

theorem execEdge_of_off {s : State} (hl : s.life = .off) : execEdge s = .next s := by
  unfold execEdge
  rw [hl]

/-- All four platform answers of an INIT are favourable (46_lifecycle R191). -/
abbrev platformGrants (d : Draws) : Prop := d.okB = true ∧ d.okP = true ∧ d.okI = true ∧ d.okD = true

/-- While OFF, INIT succeeds where the platform grants all it asks for (46_lifecycle R190, R192). -/
theorem execInit_of_granted {s : State} (hl : s.life = .off) (hg : platformGrants s.draws) :
    execInit s = .next (respond .init .ok 0 (initialise s)) := by
  obtain ⟨hb, hp, hi, hd⟩ := hg
  simp [execInit, hl, hb, hp, hi, hd]

/-- While OFF, INIT fails at the first answer that is not favourable, and keeps nothing (46_lifecycle R190, R193). -/
theorem execInit_of_denied {s : State} (hl : s.life = .off) (hg : ¬platformGrants s.draws) :
    execInit s = .next (respond .init .resourceUnavailable 0 s) := by
  unfold execInit initFailed
  rw [if_neg (by simp [hl])]
  split_ifs with hb hp hi hd
  case neg => exact absurd ⟨eq_true_of_ne_false hb, eq_true_of_ne_false hp, eq_true_of_ne_false hi,
    eq_true_of_ne_false hd⟩ hg
  all_goals rfl

/-! ### The elements without a value -/

/-- INIT writes every element that holds no value while OFF, so it does not see what stood there. -/
theorem initialise_forget (s : State) : initialise (forget s) = initialise s := rfl

/-- Two states that are OFF and differ in the forgotten elements only are the same outcome up to those. -/
theorem mapNext_forgetWhileOff_congr {t u : State} (ht : t.life = .off) (hu : u.life = .off)
    (hf : forget t = forget u) :
    mapNext forgetWhileOff (.next t) = mapNext forgetWhileOff (.next u) := by
  simp only [mapNext, forgetWhileOff, ht, hu, hf]

/-- Settles O52: while OFF each operation is refused, changes none of the elements without a value, or is the INIT that
writes them all. -/
theorem offStateHidesValues : Obligations.OffStateHidesValues := by
  intro i s hl
  have hl' : (forget s).life = .off := hl
  by_cases hi : needsReady i = true
  · rw [exec_needsReady_of_off hi hl, exec_needsReady_of_off hi hl']
    exact mapNext_forgetWhileOff_congr hl hl rfl
  · cases i with
    | edge =>
      simp only [exec, execEdge_of_off hl, execEdge_of_off hl']
      exact mapNext_forgetWhileOff_congr hl hl rfl
    | tick k => exact mapNext_forgetWhileOff_congr hl hl rfl
    | init =>
      change mapNext forgetWhileOff (execInit s) = mapNext forgetWhileOff (execInit (forget s))
      by_cases hg : platformGrants s.draws
      · rw [execInit_of_granted hl hg, execInit_of_granted hl' hg, initialise_forget]
      · rw [execInit_of_denied hl hg, execInit_of_denied hl' hg]
        exact mapNext_forgetWhileOff_congr hl hl rfl
    | reserved op => exact mapNext_forgetWhileOff_congr hl hl rfl
    | read | cancel | write | ctrlSet | ctrlGet | ctrlExchange | ctrlInvalid | teardown => exact absurd rfl hi

end Sys2Proof.Machine
end

section
/-! SUPPORT. Which steps write `ticks`, the ControlValue and the display string, and that none clears the refused mark or
writes the configuration (10_state R29, R30, R31, R36). -/

namespace Sys2Proof.Machine

/-! ### States that agree in these elements -/

/-- `t` has the tick counter, the ControlValue, the display string and the configuration of `s`, and its refused mark is set
where that of `s` is. -/
structure SameElements (s t : State) : Prop where
  ticks : t.ticks = s.ticks
  ctrlValue : t.ctrlValue = s.ctrlValue
  msg : t.msg = s.msg
  msgLen : t.msgLen = s.msgLen
  refused : s.refused = true → t.refused = true
  cfg : t.cfg = s.cfg

theorem SameElements.refl (s : State) : SameElements s s := ⟨rfl, rfl, rfl, rfl, id, rfl⟩

theorem refuse_sameElements (s : State) : SameElements s (refuse s) := ⟨rfl, rfl, rfl, rfl, fun _ => rfl, rfl⟩

theorem SameElements.respond {s t : State} (h : SameElements s t) (k : ReqKind) (st : Status) (v : BitVec 64) :
    SameElements s (Machine.respond k st v t) := ⟨h.ticks, h.ctrlValue, h.msg, h.msgLen, h.refused, h.cfg⟩

theorem endRead_sameElements (s : State) : SameElements s (endRead s) := by constructor <;> simp

theorem deliver_sameElements {n dst : Nat} {s t : State} (h : deliver n dst s = .next t) : SameElements s t := by
  obtain ⟨bytes, -, rfl⟩ := deliver_cases h
  constructor <;> simp

/-! ### The steps that write none of these elements -/

theorem execEdge_sameElements {s t : State} (h : execEdge s = .next t) : SameElements s t := by
  obtain ⟨-, rfl⟩ | ⟨-, rfl⟩ := execEdge_cases h
  · exact ⟨rfl, rfl, rfl, rfl, id, rfl⟩
  · exact .refl _

theorem execRead_sameElements {n dst : Nat} {s t : State} (h : execRead n dst s = .next t) : SameElements s t := by
  obtain ⟨-, rfl⟩ | ⟨-, -, -, rfl⟩ | ⟨-, -, -, hd⟩ := execRead_cases h
  · exact refuse_sameElements s
  · exact ⟨rfl, rfl, rfl, rfl, id, rfl⟩
  · exact deliver_sameElements hd

theorem execCancel_sameElements {s t : State} (h : execCancel s = .next t) : SameElements s t := by
  obtain ⟨-, rfl⟩ | ⟨-, -, rfl⟩ | ⟨-, -, rfl⟩ := execCancel_cases h
  · exact refuse_sameElements s
  · exact ((endRead_sameElements s).respond ..).respond ..
  · exact (SameElements.refl s).respond ..

theorem execCtrlGet_sameElements {arg : Nat} {s t : State} (h : execCtrlGet arg s = .next t) : SameElements s t := by
  obtain ⟨-, rfl⟩ | ⟨-, rfl⟩ | ⟨-, rfl⟩ | ⟨-, rfl⟩ := execCtrlGet_cases h
  · exact refuse_sameElements s
  all_goals exact ⟨rfl, rfl, rfl, rfl, id, rfl⟩

theorem execCtrlInvalid_sameElements (c : CmdWord) (arg : Nat) {s t : State}
    (h : execCtrlInvalid c arg s = .next t) : SameElements s t := by
  obtain ⟨-, rfl⟩ | ⟨-, rfl⟩ := execCtrlInvalid_cases c arg h
  · exact refuse_sameElements s
  · exact (SameElements.refl s).respond ..

theorem autoStep_sameElements {a : AutoStep} {s t : State} (h : autoStep a s = .next t) : SameElements s t := by
  cases a with
  | capture =>
    obtain ⟨-, ⟨-, rfl⟩ | ⟨-, -, rfl⟩⟩ := captureStep_cases h
    all_goals exact ⟨rfl, rfl, rfl, rfl, id, rfl⟩
  | complete => exact deliver_sameElements (completeStep_cases h).2

theorem hostStoreStep_sameElements {addr : Nat} {b : Byte} {s t : State} (h : hostStoreStep addr b s = .next t) :
    SameElements s t := by
  cases h
  exact ⟨rfl, rfl, rfl, rfl, id, rfl⟩

/-! ### The steps that write one of them, which agree in the others -/

theorem execWrite_sameElements {n src : Nat} {s t : State} (h : execWrite n src s = .next t) :
    SameElements { s with msg := t.msg, msgLen := t.msgLen } t := by
  obtain ⟨-, rfl⟩ | ⟨-, -, rfl⟩ | ⟨-, bytes, -, rfl⟩ := execWrite_cases h
  · exact refuse_sameElements s
  all_goals exact ⟨rfl, rfl, rfl, rfl, id, rfl⟩

theorem execCtrlSet_sameElements {arg : Nat} {s t : State} (h : execCtrlSet arg s = .next t) :
    SameElements { s with ctrlValue := t.ctrlValue } t := by
  obtain ⟨-, rfl⟩ | ⟨-, rfl⟩ | ⟨-, bytes, -, rfl⟩ := execCtrlSet_cases h
  · exact refuse_sameElements s
  all_goals exact ⟨rfl, rfl, rfl, rfl, id, rfl⟩

theorem execCtrlExchange_sameElements {arg : Nat} {s t : State} (h : execCtrlExchange arg s = .next t) :
    SameElements { s with ctrlValue := t.ctrlValue } t := by
  obtain ⟨-, rfl⟩ | ⟨-, rfl⟩ | ⟨-, bytes, -, rfl | rfl⟩ := execCtrlExchange_cases h
  · exact refuse_sameElements s
  all_goals exact ⟨rfl, rfl, rfl, rfl, id, rfl⟩

theorem execInit_sameElements {s t : State} (h : execInit s = .next t) :
    SameElements { s with ctrlValue := t.ctrlValue, msg := t.msg, msgLen := t.msgLen } t := by
  obtain ⟨-, rfl⟩ | ⟨-, rfl⟩ | ⟨-, rfl⟩ := execInit_cases h
  · exact refuse_sameElements s
  all_goals exact ⟨rfl, rfl, rfl, rfl, id, rfl⟩

theorem execTeardown_sameElements {s t : State} (h : execTeardown s = .next t) :
    SameElements { s with ctrlValue := t.ctrlValue, msg := t.msg, msgLen := t.msgLen } t := by
  obtain ⟨-, rfl⟩ | ⟨-, -, rfl⟩ := execTeardown_cases h
  · exact refuse_sameElements s
  · exact ⟨rfl, rfl, rfl, rfl, id, rfl⟩

/-! ### The writers -/

/-- The step from `s` to `t`, which presents the operation `o` or none, writes an element only where `o` is one of that
element's writers (10_state R29, R30, R31, R36). -/
structure WritesOwn (o : Option Instr) (s t : State) : Prop where
  ticks : (∀ k, o ≠ some (.tick k)) → t.ticks = s.ticks
  ctrlValue : o ≠ some .init → o ≠ some .teardown → (∀ a, o ≠ some (.ctrlSet a)) →
    (∀ a, o ≠ some (.ctrlExchange a)) → t.ctrlValue = s.ctrlValue
  display : o ≠ some .init → o ≠ some .teardown → (∀ n a, o ≠ some (.write n a)) →
    t.msg = s.msg ∧ t.msgLen = s.msgLen
  refused : s.refused = true → t.refused = true
  cfg : t.cfg = s.cfg

/-- A step that writes none of the elements is within the rule, whatever it presents. -/
theorem SameElements.writesOwn {s t : State} (h : SameElements s t) (o : Option Instr) : WritesOwn o s t :=
  ⟨fun _ => h.ticks, fun _ _ _ _ => h.ctrlValue, fun _ _ _ => ⟨h.msg, h.msgLen⟩, h.refused, h.cfg⟩

theorem exec_writesOwn {i : Instr} {s t : State} (h : exec i s = .next t) : WritesOwn (some i) s t := by
  cases i with
  | edge => exact (execEdge_sameElements h).writesOwn _
  | tick k =>
    cases h
    exact ⟨fun hk => absurd rfl (hk k), fun _ _ _ _ => rfl, fun _ _ _ => ⟨rfl, rfl⟩, id, rfl⟩
  | read n dst => exact (execRead_sameElements h).writesOwn _
  | cancel => exact (execCancel_sameElements h).writesOwn _
  | write n src =>
    have e := execWrite_sameElements h
    exact ⟨fun _ => e.ticks, fun _ _ _ _ => e.ctrlValue, fun _ _ hw => absurd rfl (hw n src), e.refused, e.cfg⟩
  | ctrlSet arg =>
    have e := execCtrlSet_sameElements h
    exact ⟨fun _ => e.ticks, fun _ _ hs _ => absurd rfl (hs arg), fun _ _ _ => ⟨e.msg, e.msgLen⟩, e.refused, e.cfg⟩
  | ctrlGet arg => exact (execCtrlGet_sameElements h).writesOwn _
  | ctrlExchange arg =>
    have e := execCtrlExchange_sameElements h
    exact ⟨fun _ => e.ticks, fun _ _ _ hx => absurd rfl (hx arg), fun _ _ _ => ⟨e.msg, e.msgLen⟩, e.refused, e.cfg⟩
  | ctrlInvalid c arg => exact (execCtrlInvalid_sameElements c arg h).writesOwn _
  | init =>
    have e := execInit_sameElements h
    exact ⟨fun _ => e.ticks, fun hi => absurd rfl hi, fun hi => absurd rfl hi, e.refused, e.cfg⟩
  | teardown =>
    have e := execTeardown_sameElements h
    exact ⟨fun _ => e.ticks, fun _ ht => absurd rfl ht, fun _ ht => absurd rfl ht, e.refused, e.cfg⟩
  | reserved op =>
    cases h
    exact (refuse_sameElements s).writesOwn _

/-- Taking the move off the list writes none of the elements. -/
theorem WritesOwn.of_takeMove {o : Option Instr} {m : Move} {rest : List Move} {s t : State}
    (h : WritesOwn o (takeMove m rest s) t) : WritesOwn o s t :=
  ⟨h.ticks, h.ctrlValue, h.display, h.refused, h.cfg⟩

theorem step_writesOwn {s t : State} (h : step s = .next t) : WritesOwn (nextRequest s) s t := by
  obtain ⟨-, ⟨-, rfl⟩ | ⟨⟨what, draws⟩, rest, hm, hr⟩⟩ := step_cases h
  · exact (SameElements.refl _).writesOwn _
  · refine WritesOwn.of_takeMove (m := ⟨what, draws⟩) (rest := rest) ?_
    cases what with
    | request r =>
      rw [show nextRequest s = some (decode s.cfg r) by rw [nextRequest, hm]]
      exact exec_writesOwn hr
    | auto a => exact (autoStep_sameElements hr).writesOwn _
    | hostStore addr b => exact (hostStoreStep_sameElements hr).writesOwn _

/-- Settles O58, by the kind of the next move and, for a request, its operation. -/
theorem writersOfTheOtherElements : Obligations.WritersOfTheOtherElements := fun _ _ h =>
  have w := step_writesOwn h
  ⟨w.ticks, fun hi ht => ⟨w.ctrlValue hi ht, w.display hi ht⟩, w.refused, w.cfg⟩

end Sys2Proof.Machine
end

section
/-! SUPPORT. What an admitted CAPTURE does to the bytes of the Event Buffer (20_memory R51, R52, 42_capture R124). -/

namespace Sys2Proof.Machine

/-- Byte `i` of a timestamp's little-endian bytes is `v[8i+7:8i]` (20_memory R51). -/
theorem leBytes_getElem?_extract (v : Timestamp) {n i : Nat} (hi : i < n) :
    (leBytes n v.toNat)[i]? = some (v.extractLsb' (8 * i) 8) := by
  have hlen : i < (leBytes n v.toNat).length := by simpa using hi
  have hpow : 256 ^ i = 2 ^ (8 * i) := by rw [pow_mul]; norm_num
  rw [List.getElem?_eq_getElem hlen, leBytes_getElem hlen, BitVec.extractLsb', Nat.shiftRight_eq_div_pow, hpow]

/-- The bytes of a record, as the buffer reads them. -/
theorem bufByte_of_recordIs {s : State} {off : Nat} {v : Timestamp} (h : recordIs s off v) {i : Nat}
    (hi : i < s.cfg.R) : bufByte s (off + i) = v.extractLsb' (8 * i) 8 := by
  rw [bufByte, h i hi, leBytes_getElem?_extract v hi, Option.getD_some]

/-- An admitted CAPTURE leaves the record of `ticks` at the head it found. -/
theorem recordIs_captured (s : State) : recordIs (captured s) s.head s.ticks :=
  recordIs_congr rfl rfl recordIs_bufPut

/-- An admitted CAPTURE leaves every byte outside that record as it was. -/
theorem bufByte_captured_other (s : State) {off : Nat} (hoff : off < s.head ∨ s.head + s.cfg.R ≤ off) :
    bufByte (captured s) off = bufByte s off := by
  have hcell : cellGet (captured s).buf off = cellGet s.buf off := by
    rw [captured, cellGet_bufPut, leBytes_length, if_neg (by omega)]
  rw [bufByte, hcell]
  rfl

/-- A CAPTURE that moved the head was admitted. -/
theorem captureStep_head_ne {s t : State} (h : captureStep s = .next t) (hne : t.head ≠ s.head) : t = captured s := by
  obtain ⟨-, ⟨-, rfl⟩ | ⟨-, -, ht⟩⟩ := captureStep_cases h
  · exact absurd rfl hne
  · exact ht

/-- Settles O21: the record is written where the head stood, and nothing outside its `R = 8` bytes. -/
theorem captureWritesOneRecord : Obligations.CaptureWritesOneRecord := by
  intro s t hinv h hne
  have hR : s.cfg.R = 8 := Ok_R hinv.cfgOk
  obtain rfl := captureStep_head_ne h hne
  exact ⟨fun i hi => bufByte_of_recordIs (recordIs_captured s) (hR.symm ▸ hi),
    fun off hoff => bufByte_captured_other s (hR.symm ▸ hoff)⟩

end Sys2Proof.Machine
end

section
/-! SUPPORT. Which steps write the head, the buffer and the debounce state, the tail, the reader's state, the edge latch and
`life` (10_state R24 to R28, R32 to R34, 20_memory R63). -/

namespace Sys2Proof.Machine

/-! ### States that agree in these elements -/

/-- `t` has the event path of `s` and its `life`. The reader's operands and the display string are not among these. -/
structure SameEventPath (s t : State) : Prop where
  life : t.life = s.life
  head : t.head = s.head
  buf : t.buf = s.buf
  bufGen : t.bufGen = s.bufGen
  dblLast : t.dblLast = s.dblLast
  dblValid : t.dblValid = s.dblValid
  tail : t.tail = s.tail
  rdState : t.rdState = s.rdState
  irqPending : t.irqPending = s.irqPending

theorem SameEventPath.refl (s : State) : SameEventPath s s := ⟨rfl, rfl, rfl, rfl, rfl, rfl, rfl, rfl, rfl⟩

theorem refuse_sameEventPath (s : State) : SameEventPath s (refuse s) := ⟨rfl, rfl, rfl, rfl, rfl, rfl, rfl, rfl, rfl⟩

/-! ### The steps that write none of these elements -/

theorem execTick_sameEventPath {k : Nat} {s t : State} (h : execTick k s = .next t) : SameEventPath s t := by
  cases h
  exact ⟨rfl, rfl, rfl, rfl, rfl, rfl, rfl, rfl, rfl⟩

theorem hostStoreStep_sameEventPath {addr : Nat} {b : Byte} {s t : State} (h : hostStoreStep addr b s = .next t) :
    SameEventPath s t := by
  cases h
  exact ⟨rfl, rfl, rfl, rfl, rfl, rfl, rfl, rfl, rfl⟩

theorem execWrite_sameEventPath {n src : Nat} {s t : State} (h : execWrite n src s = .next t) : SameEventPath s t := by
  obtain ⟨-, rfl⟩ | ⟨-, -, rfl⟩ | ⟨-, bytes, -, rfl⟩ := execWrite_cases h
  · exact refuse_sameEventPath s
  all_goals exact ⟨rfl, rfl, rfl, rfl, rfl, rfl, rfl, rfl, rfl⟩

theorem execCtrlSet_sameEventPath {arg : Nat} {s t : State} (h : execCtrlSet arg s = .next t) :
    SameEventPath s t := by
  obtain ⟨-, rfl⟩ | ⟨-, rfl⟩ | ⟨-, bytes, -, rfl⟩ := execCtrlSet_cases h
  · exact refuse_sameEventPath s
  all_goals exact ⟨rfl, rfl, rfl, rfl, rfl, rfl, rfl, rfl, rfl⟩

theorem execCtrlGet_sameEventPath {arg : Nat} {s t : State} (h : execCtrlGet arg s = .next t) :
    SameEventPath s t := by
  obtain ⟨-, rfl⟩ | ⟨-, rfl⟩ | ⟨-, rfl⟩ | ⟨-, rfl⟩ := execCtrlGet_cases h
  · exact refuse_sameEventPath s
  all_goals exact ⟨rfl, rfl, rfl, rfl, rfl, rfl, rfl, rfl, rfl⟩

theorem execCtrlExchange_sameEventPath {arg : Nat} {s t : State} (h : execCtrlExchange arg s = .next t) :
    SameEventPath s t := by
  obtain ⟨-, rfl⟩ | ⟨-, rfl⟩ | ⟨-, bytes, -, rfl | rfl⟩ := execCtrlExchange_cases h
  · exact refuse_sameEventPath s
  all_goals exact ⟨rfl, rfl, rfl, rfl, rfl, rfl, rfl, rfl, rfl⟩

theorem execCtrlInvalid_sameEventPath (c : CmdWord) (arg : Nat) {s t : State}
    (h : execCtrlInvalid c arg s = .next t) : SameEventPath s t := by
  obtain ⟨-, rfl⟩ | ⟨-, rfl⟩ := execCtrlInvalid_cases c arg h
  · exact refuse_sameEventPath s
  · exact ⟨rfl, rfl, rfl, rfl, rfl, rfl, rfl, rfl, rfl⟩

/-! ### The writers, which agree in all but their own elements -/

theorem execEdge_sameEventPath {s t : State} (h : execEdge s = .next t) :
    SameEventPath { s with irqPending := t.irqPending } t := by
  obtain ⟨-, rfl⟩ | ⟨-, rfl⟩ := execEdge_cases h
  all_goals exact ⟨rfl, rfl, rfl, rfl, rfl, rfl, rfl, rfl, rfl⟩

theorem deliver_sameEventPath {n dst : Nat} {s t : State} (h : deliver n dst s = .next t) :
    SameEventPath { s with tail := t.tail, rdState := t.rdState } t := by
  obtain ⟨bytes, -, rfl⟩ := deliver_cases h
  constructor <;> simp

theorem execRead_sameEventPath {n dst : Nat} {s t : State} (h : execRead n dst s = .next t) :
    SameEventPath { s with tail := t.tail, rdState := t.rdState } t := by
  obtain ⟨-, rfl⟩ | ⟨-, -, -, rfl⟩ | ⟨-, -, -, hd⟩ := execRead_cases h
  · exact refuse_sameEventPath s
  · exact ⟨rfl, rfl, rfl, rfl, rfl, rfl, rfl, rfl, rfl⟩
  · exact deliver_sameEventPath hd

theorem execCancel_sameEventPath {s t : State} (h : execCancel s = .next t) :
    SameEventPath { s with rdState := t.rdState } t := by
  obtain ⟨-, rfl⟩ | ⟨-, -, rfl⟩ | ⟨-, -, rfl⟩ := execCancel_cases h
  · exact refuse_sameEventPath s
  · constructor <;> simp
  · exact ⟨rfl, rfl, rfl, rfl, rfl, rfl, rfl, rfl, rfl⟩

theorem captureStep_sameEventPath {s t : State} (h : captureStep s = .next t) :
    SameEventPath { s with
      head := t.head, buf := t.buf, dblLast := t.dblLast, dblValid := t.dblValid, irqPending := t.irqPending } t := by
  obtain ⟨-, ⟨-, rfl⟩ | ⟨-, -, rfl⟩⟩ := captureStep_cases h
  all_goals exact ⟨rfl, rfl, rfl, rfl, rfl, rfl, rfl, rfl, rfl⟩

theorem completeStep_sameEventPath {s t : State} (h : completeStep s = .next t) :
    SameEventPath { s with tail := t.tail, rdState := t.rdState } t :=
  deliver_sameEventPath (completeStep_cases h).2

/-! ### Each element has its writers -/

/-- The step from `s` to `t`, which presents the operation `o` or takes the autonomous step `a` or neither, writes an
element of the event path only where it is one of that element's writers (20_memory R63). -/
structure WritesOwnEventPath (o : Option Instr) (a : Option AutoStep) (s t : State) : Prop where
  record : a ≠ some .capture →
    t.head = s.head ∧ t.buf = s.buf ∧ t.bufGen = s.bufGen ∧ t.dblLast = s.dblLast ∧ t.dblValid = s.dblValid
  reader : a ≠ some .complete → (∀ n dst, o ≠ some (.read n dst)) →
    t.tail = s.tail ∧ (o ≠ some .cancel → t.rdState = s.rdState)
  latch : a ≠ some .capture → o ≠ some .edge → t.irqPending = s.irqPending
  life : t.life = s.life

/-- A step that writes none of the elements is within the rule, whatever it is. -/
theorem SameEventPath.writesOwn {s t : State} (h : SameEventPath s t) (o : Option Instr) (a : Option AutoStep) :
    WritesOwnEventPath o a s t :=
  ⟨fun _ => ⟨h.head, h.buf, h.bufGen, h.dblLast, h.dblValid⟩, fun _ _ => ⟨h.tail, fun _ => h.rdState⟩,
    fun _ _ => h.irqPending, h.life⟩

theorem exec_writesOwnEventPath {i : Instr} {s t : State} (h : exec i s = .next t) (hi : i ≠ .init)
    (ht : i ≠ .teardown) : WritesOwnEventPath (some i) none s t := by
  cases i with
  | edge =>
    have e := execEdge_sameEventPath h
    exact { e.writesOwn _ _ with latch := fun _ ho => absurd rfl ho }
  | tick k => exact (execTick_sameEventPath h).writesOwn _ _
  | read n dst =>
    have e := execRead_sameEventPath h
    exact { e.writesOwn _ _ with reader := fun _ ho => absurd rfl (ho n dst) }
  | cancel =>
    have e := execCancel_sameEventPath h
    exact { e.writesOwn _ _ with reader := fun _ _ => ⟨e.tail, fun ho => absurd rfl ho⟩ }
  | write n src => exact (execWrite_sameEventPath h).writesOwn _ _
  | ctrlSet arg => exact (execCtrlSet_sameEventPath h).writesOwn _ _
  | ctrlGet arg => exact (execCtrlGet_sameEventPath h).writesOwn _ _
  | ctrlExchange arg => exact (execCtrlExchange_sameEventPath h).writesOwn _ _
  | ctrlInvalid c arg => exact (execCtrlInvalid_sameEventPath c arg h).writesOwn _ _
  | init => exact absurd rfl hi
  | teardown => exact absurd rfl ht
  | reserved op =>
    cases h
    exact (refuse_sameEventPath s).writesOwn _ _

theorem autoStep_writesOwnEventPath {a : AutoStep} {s t : State} (h : autoStep a s = .next t) :
    WritesOwnEventPath none (some a) s t := by
  cases a with
  | capture =>
    have e := captureStep_sameEventPath h
    exact { e.writesOwn _ _ with record := fun ha => absurd rfl ha, latch := fun ha => absurd rfl ha }
  | complete =>
    have e := completeStep_sameEventPath h
    exact { e.writesOwn _ _ with reader := fun ha => absurd rfl ha }

/-- Taking the move off the list writes none of the elements. -/
theorem WritesOwnEventPath.of_takeMove {o : Option Instr} {a : Option AutoStep} {m : Move} {rest : List Move}
    {s t : State} (h : WritesOwnEventPath o a (takeMove m rest s) t) : WritesOwnEventPath o a s t :=
  ⟨h.record, h.reader, h.latch, h.life⟩

theorem step_writesOwnEventPath {s t : State} (h : step s = .next t) (hi : nextRequest s ≠ some .init)
    (ht : nextRequest s ≠ some .teardown) : WritesOwnEventPath (nextRequest s) (nextAuto s) s t := by
  obtain ⟨-, ⟨-, rfl⟩ | ⟨⟨what, draws⟩, rest, hm, hr⟩⟩ := step_cases h
  · exact (SameEventPath.refl _).writesOwn _ _
  · refine WritesOwnEventPath.of_takeMove (m := ⟨what, draws⟩) (rest := rest) ?_
    cases what with
    | request r =>
      have hreq : nextRequest s = some (decode s.cfg r) := by rw [nextRequest, hm]
      have hauto : nextAuto s = none := by rw [nextAuto, hm]
      rw [hreq] at hi ht ⊢
      rw [hauto]
      exact exec_writesOwnEventPath hr (fun e => hi (congrArg some e)) (fun e => ht (congrArg some e))
    | auto a =>
      have hreq : nextRequest s = none := by rw [nextRequest, hm]
      have hauto : nextAuto s = some a := by rw [nextAuto, hm]
      rw [hreq, hauto]
      exact autoStep_writesOwnEventPath hr
    | hostStore addr b => exact (hostStoreStep_sameEventPath hr).writesOwn _ _

/-- Settles O57, by the kind of the next move and, for a request, its operation. -/
theorem singleWriterPerField : Obligations.SingleWriterPerField := fun _ _ h hi ht =>
  have w := step_writesOwnEventPath h hi ht
  ⟨w.record, w.reader, w.latch, w.life⟩

end Sys2Proof.Machine
end

section
/-! SUPPORT. The steps that leave host memory as it was: every operation but READ, CTRL.GET and CTRL.EXCHANGE, and CAPTURE
(20_memory R54, R55, 44_control R163). -/

namespace Sys2Proof.Machine

theorem execEdge_hmem {s t : State} (h : execEdge s = .next t) : t.hmem = s.hmem := by
  obtain ⟨-, rfl⟩ | ⟨-, rfl⟩ := execEdge_cases h <;> rfl

theorem execCancel_hmem {s t : State} (h : execCancel s = .next t) : t.hmem = s.hmem := by
  obtain ⟨-, rfl⟩ | ⟨-, -, rfl⟩ | ⟨-, -, rfl⟩ := execCancel_cases h <;> simp

theorem execWrite_hmem {n src : Nat} {s t : State} (h : execWrite n src s = .next t) : t.hmem = s.hmem := by
  obtain ⟨-, rfl⟩ | ⟨-, -, rfl⟩ | ⟨-, bytes, -, rfl⟩ := execWrite_cases h <;> rfl

theorem execCtrlSet_hmem {arg : Nat} {s t : State} (h : execCtrlSet arg s = .next t) : t.hmem = s.hmem := by
  obtain ⟨-, rfl⟩ | ⟨-, rfl⟩ | ⟨-, bytes, -, rfl⟩ := execCtrlSet_cases h <;> rfl

theorem execCtrlInvalid_hmem (c : CmdWord) (arg : Nat) {s t : State} (h : execCtrlInvalid c arg s = .next t) :
    t.hmem = s.hmem := by
  obtain ⟨-, rfl⟩ | ⟨-, rfl⟩ := execCtrlInvalid_cases c arg h <;> rfl

theorem execInit_hmem {s t : State} (h : execInit s = .next t) : t.hmem = s.hmem := by
  obtain ⟨-, rfl⟩ | ⟨-, rfl⟩ | ⟨-, rfl⟩ := execInit_cases h <;> rfl

theorem execTeardown_hmem {s t : State} (h : execTeardown s = .next t) : t.hmem = s.hmem := by
  obtain ⟨-, rfl⟩ | ⟨-, -, rfl⟩ := execTeardown_cases h <;> rfl

theorem captureStep_hmem {s t : State} (h : captureStep s = .next t) : t.hmem = s.hmem := by
  obtain ⟨-, ⟨-, rfl⟩ | ⟨-, -, rfl⟩⟩ := captureStep_cases h <;> rfl

/-- An operation that copies nothing to the host leaves host memory as it was. -/
theorem exec_hmem {i : Instr} {s t : State} (h : exec i s = .next t) (hread : ∀ n dst, i ≠ .read n dst)
    (hget : ∀ a, i ≠ .ctrlGet a) (hexchange : ∀ a, i ≠ .ctrlExchange a) : t.hmem = s.hmem := by
  cases i with
  | edge => exact execEdge_hmem h
  | tick k => cases h; rfl
  | read n dst => exact absurd rfl (hread n dst)
  | cancel => exact execCancel_hmem h
  | write n src => exact execWrite_hmem h
  | ctrlSet arg => exact execCtrlSet_hmem h
  | ctrlGet arg => exact absurd rfl (hget arg)
  | ctrlExchange arg => exact absurd rfl (hexchange arg)
  | ctrlInvalid c arg => exact execCtrlInvalid_hmem c arg h
  | init => exact execInit_hmem h
  | teardown => exact execTeardown_hmem h
  | reserved op => cases h; rfl

/-- Settles O60, by the operation: the list of host memory's bytes itself is kept. -/
theorem otherStepsKeepHostMemory : Obligations.OtherStepsKeepHostMemory :=
  ⟨fun _ s _ h hread hget hexchange x => congrArg (hmemByte s.cfg · x) (exec_hmem h hread hget hexchange),
    fun s _ h x => congrArg (hmemByte s.cfg · x) (captureStep_hmem h)⟩

end Sys2Proof.Machine
end

section
/-! SUPPORT. The decoder, one equation for each operation select, and what follows for every request: decode and encode
agree, and the decoder gives the first matching row of the opcode map (30_encoding R70 to R85). -/

namespace Sys2Proof

/-! ### The operation of each operation select (30_encoding R71) -/

section
variable {p : Params} {r : Request}

theorem decode_edge (h : r.op = 0x0#4) : decode p r = .edge := by simp [decode, h]
theorem decode_tick (h : r.op = 0x1#4) : decode p r = .tick (lenField p r) := by simp [decode, h]
theorem decode_read (h : r.op = 0x2#4) : decode p r = .read (lenField p r) (addrField p r) := by simp [decode, h]
theorem decode_cancel (h : r.op = 0x3#4) : decode p r = .cancel := by simp [decode, h]
theorem decode_write (h : r.op = 0x4#4) : decode p r = .write (lenField p r) (addrField p r) := by simp [decode, h]
theorem decode_init (h : r.op = 0x6#4) : decode p r = .init := by simp [decode, h]
theorem decode_teardown (h : r.op = 0x7#4) : decode p r = .teardown := by simp [decode, h]

end

/-- An operation select is one of the eight of R71 or a reserved one (30_encoding R71, R80). -/
theorem op_cases : ∀ op : BitVec 4,
    op = 0x0#4 ∨ op = 0x1#4 ∨ op = 0x2#4 ∨ op = 0x3#4 ∨ op = 0x4#4 ∨ op = 0x5#4 ∨ op = 0x6#4 ∨ op = 0x7#4 ∨
      0x8#4 ≤ op := by
  decide

/-! ### The fields of a command word (30_encoding R76) -/

section
variable (dir : BitVec 2) (size : BitVec 14) (type nr : BitVec 8)

@[simp] theorem cmdNr_cmdWord : cmdNr (cmdWord dir size type nr) = nr := BitVec.extractLsb'_append_eq_right

@[simp] theorem cmdType_cmdWord : cmdType (cmdWord dir size type nr) = type :=
  calc cmdType (cmdWord dir size type nr)
    _ = (dir ++ size ++ type).extractLsb' 0 8 := BitVec.extractLsb'_append_eq_of_le (Nat.le_refl 8)
    _ = type := BitVec.extractLsb'_append_eq_right

@[simp] theorem cmdSize_cmdWord : cmdSize (cmdWord dir size type nr) = size :=
  calc cmdSize (cmdWord dir size type nr)
    _ = (dir ++ size ++ type).extractLsb' 8 14 := BitVec.extractLsb'_append_eq_of_le (by decide)
    _ = (dir ++ size).extractLsb' 0 14 := BitVec.extractLsb'_append_eq_of_le (Nat.le_refl 8)
    _ = size := BitVec.extractLsb'_append_eq_right

@[simp] theorem cmdDir_cmdWord : cmdDir (cmdWord dir size type nr) = dir :=
  calc cmdDir (cmdWord dir size type nr)
    _ = (dir ++ size ++ type).extractLsb' 22 2 := BitVec.extractLsb'_append_eq_of_le (by decide)
    _ = (dir ++ size).extractLsb' 14 2 := BitVec.extractLsb'_append_eq_of_le (by decide)
    _ = dir := BitVec.extractLsb'_append_eq_left

end

/-- A command word has no other bits than those of its four fields. -/
theorem cmdWord_fields (c : CmdWord) : cmdWord (cmdDir c) (cmdSize c) (cmdType c) (cmdNr c) = c := by
  unfold cmdWord cmdDir cmdSize cmdType cmdNr
  rw [BitVec.extractLsb'_append_extractLsb'_eq_extractLsb' (by rfl),
    BitVec.extractLsb'_append_extractLsb'_eq_extractLsb' (by rfl)]
  exact BitVec.extractLsb'_append_extractLsb'

/-- Settles O4: the fields as the parts of the appended word, and the word as the appending of its fields. -/
theorem commandWordFields : Obligations.CommandWordFields :=
  ⟨fun _ _ _ _ => ⟨cmdDir_cmdWord .., cmdSize_cmdWord .., cmdType_cmdWord .., cmdNr_cmdWord ..⟩, cmdWord_fields⟩

theorem eq_cmdWord_iff {c : CmdWord} {dir : BitVec 2} {size : BitVec 14} {type nr : BitVec 8} :
    c = cmdWord dir size type nr ↔ cmdDir c = dir ∧ cmdSize c = size ∧ cmdType c = type ∧ cmdNr c = nr := by
  constructor
  · rintro rfl
    simp
  · rintro ⟨rfl, rfl, rfl, rfl⟩
    exact (cmdWord_fields c).symm

/-! ### Valid command words (30_encoding R77, R78) -/

/-- The decoder's two checks, and then one of the three defined words. -/
theorem decodeCmd_ne_invalid_iff {p : Params} {c : CmdWord} : decodeCmd p c ≠ .invalid ↔
    cmdType c = p.cmdMagic ∧ ¬p.cmdMaxNr < cmdNr c ∧ (c = cmdSet p ∨ c = cmdGet p ∨ c = cmdExchange p) := by
  unfold decodeCmd
  repeat' split
  all_goals simp_all

/-- Settles O5: each defined word by its four fields, of which the first check has already read `TYPE`. -/
theorem validCommandWords : Obligations.ValidCommandWords := by
  intro p c
  rw [decodeCmd_ne_invalid_iff, BitVec.not_lt, cmdSet, cmdGet, cmdExchange, eq_cmdWord_iff, eq_cmdWord_iff,
    eq_cmdWord_iff]
  simp only [BitVec.le_def, ctrlSize, Params.ctrlLen, dirToBlock, dirToHost, dirBoth]
  tauto

/-! ### The command of a CTRL request (30_encoding R78, R85) -/

section
variable {p : Params} {c : CmdWord} {arg : Nat}

theorem decodeCtrl_set (h : decodeCmd p c = .set) : decodeCtrl p c arg = .ctrlSet arg := by rw [decodeCtrl, h]
theorem decodeCtrl_get (h : decodeCmd p c = .get) : decodeCtrl p c arg = .ctrlGet arg := by rw [decodeCtrl, h]
theorem decodeCtrl_exchange (h : decodeCmd p c = .exchange) : decodeCtrl p c arg = .ctrlExchange arg := by
  rw [decodeCtrl, h]
theorem decodeCtrl_invalid (h : decodeCmd p c = .invalid) : decodeCtrl p c arg = .ctrlInvalid c arg := by
  rw [decodeCtrl, h]

theorem decode_ctrl_reqWord (ha : arg < 2 ^ p.haddrW) (c : CmdWord) (len : Nat) :
    decode p ⟨reqWord 0x5#4 c, len, arg⟩ = decodeCtrl p c arg := by
  rw [decode_ctrl (op_reqWord ..), cmd_reqWord, addrField_of_lt ha]

theorem decodeCtrl_wellFormed (c : CmdWord) (ha : arg < 2 ^ p.haddrW) : WellFormed p (decodeCtrl p c arg) = true := by
  cases h : decodeCmd p c with
  | set => rw [decodeCtrl_set h]; simp [WellFormed, ← decodeCmd_set h, h, ha]
  | get => rw [decodeCtrl_get h]; simp [WellFormed, ← decodeCmd_get h, h, ha]
  | exchange => rw [decodeCtrl_exchange h]; simp [WellFormed, ← decodeCmd_exchange h, h, ha]
  | invalid => rw [decodeCtrl_invalid h]; simp [WellFormed, h, ha]

end

/-! ### Decode and encode agree -/

theorem decode_encode {p : Params} {i : Instr} (h : WellFormed p i = true) : decode p (encode p i) = i := by
  cases i with
  | edge => exact decode_edge (op_reqWord ..)
  | tick k =>
    have hk : k < 2 ^ p.lenW := of_decide_eq_true h
    exact (decode_tick (op_reqWord ..)).trans (congrArg Instr.tick (lenField_of_lt hk ..))
  | read n dst =>
    have ⟨hn, hd⟩ : n < 2 ^ p.lenW ∧ dst < 2 ^ p.haddrW := by simpa [WellFormed] using h
    exact (decode_read (op_reqWord ..)).trans (congrArg₂ Instr.read (lenField_of_lt hn ..) (addrField_of_lt hd ..))
  | cancel => exact decode_cancel (op_reqWord ..)
  | write n src =>
    have ⟨hn, hs⟩ : n < 2 ^ p.lenW ∧ src < 2 ^ p.haddrW := by simpa [WellFormed] using h
    exact (decode_write (op_reqWord ..)).trans (congrArg₂ Instr.write (lenField_of_lt hn ..) (addrField_of_lt hs ..))
  | ctrlSet arg =>
    have ⟨hc, ha⟩ : decodeCmd p (cmdSet p) = .set ∧ arg < 2 ^ p.haddrW := by simpa [WellFormed] using h
    exact (decode_ctrl_reqWord ha ..).trans (decodeCtrl_set hc)
  | ctrlGet arg =>
    have ⟨hc, ha⟩ : decodeCmd p (cmdGet p) = .get ∧ arg < 2 ^ p.haddrW := by simpa [WellFormed] using h
    exact (decode_ctrl_reqWord ha ..).trans (decodeCtrl_get hc)
  | ctrlExchange arg =>
    have ⟨hc, ha⟩ : decodeCmd p (cmdExchange p) = .exchange ∧ arg < 2 ^ p.haddrW := by simpa [WellFormed] using h
    exact (decode_ctrl_reqWord ha ..).trans (decodeCtrl_exchange hc)
  | ctrlInvalid c arg =>
    have ⟨hc, ha⟩ : decodeCmd p c = .invalid ∧ arg < 2 ^ p.haddrW := by simpa [WellFormed] using h
    exact (decode_ctrl_reqWord ha ..).trans (decodeCtrl_invalid hc)
  | init => exact decode_init (op_reqWord ..)
  | teardown => exact decode_teardown (op_reqWord ..)
  | reserved op =>
    have hop : 0x8#4 ≤ op := of_decide_eq_true h
    exact (decode_reserved (by rwa [encode, op_reqWord])).trans (congrArg Instr.reserved (op_reqWord ..))

/-- Settles O1, by the operation. -/
theorem decodeEncodeRoundTrip : Obligations.DecodeEncodeRoundTrip := fun _ _ => decode_encode

/-- Settles O2, by the operation select and, for a CTRL request, the command. -/
theorem decodedRequestsAreWellFormed : Obligations.DecodedRequestsAreWellFormed := by
  intro p r
  have hlen := lenField_lt p r
  have haddr := addrField_lt p r
  obtain h | h | h | h | h | h | h | h | h := op_cases r.op
  · rw [decode_edge h]; rfl
  · rw [decode_tick h]; simpa [WellFormed]
  · rw [decode_read h]; simp [WellFormed, hlen, haddr]
  · rw [decode_cancel h]; rfl
  · rw [decode_write h]; simp [WellFormed, hlen, haddr]
  · exact decode_ctrl h ▸ decodeCtrl_wellFormed r.cmd haddr
  · rw [decode_init h]; rfl
  · rw [decode_teardown h]; rfl
  · rw [decode_reserved h]; simpa [WellFormed]

/-! ### The opcode map (30_encoding R85) -/

theorem reqWord_op_cmd (r : Request) : reqWord r.op r.cmd = r.word :=
  BitVec.extractLsb'_append_extractLsb' (w := 4) (len := 32) (x := r.word)

/-- A request word matches a row when its two fields match those of the row. -/
theorem reqWord_and_eq_iff (op : BitVec 4) (c : CmdWord) (mask pattern : ReqWord) : reqWord op c &&& mask = pattern ↔
    op &&& mask.extractLsb' 32 4 = pattern.extractLsb' 32 4 ∧
      c &&& mask.extractLsb' 0 32 = pattern.extractLsb' 0 32 := by
  have hmask : reqWord (mask.extractLsb' 32 4) (mask.extractLsb' 0 32) = mask := reqWord_op_cmd ⟨mask, 0, 0⟩
  have hand : reqWord op c &&& mask = reqWord (op &&& mask.extractLsb' 32 4) (c &&& mask.extractLsb' 0 32) :=
    (congrArg (reqWord op c &&& ·) hmask.symm).trans BitVec.and_append
  rw [hand]
  constructor
  · rintro rfl
    exact ⟨(extract_append_high ..).symm, (extract_append_low ..).symm⟩
  · rintro ⟨hop, hcmd⟩
    rw [hop, hcmd]
    exact reqWord_op_cmd ⟨pattern, 0, 0⟩

/-- With the default parameters each of the three words passes both checks, so the decoder compares the whole word. -/
theorem decodeCmd_default (c : CmdWord) : decodeCmd Params.default c =
    if c = 0x40046B00#32 then .set else if c = 0x80046B01#32 then .get
    else if c = 0xC0046B02#32 then .exchange else .invalid := by
  split_ifs with hset hget hexchange
  · subst hset; rfl
  · subst hget; rfl
  · subst hexchange; rfl
  · by_contra h
    obtain ⟨-, -, h | h | h⟩ := decodeCmd_ne_invalid_iff.mp h
    · exact hset h
    · exact hget h
    · exact hexchange h

/-- A CTRL request matches one of the three rows that give the whole word, or else the row of its operation select. -/
theorem firstRow_ctrl (c : CmdWord) (arg : Nat) :
    firstRow (reqWord 0x5#4 c) = some (mnemonic (decodeCtrl Params.default c arg)) := by
  have hfull : c &&& 0xFFFFFFFF#32 = c := BitVec.and_allOnes
  rw [decodeCtrl, decodeCmd_default]
  split_ifs with hset hget hexchange
  · subst hset; rfl
  · subst hget; rfl
  · subst hexchange; rfl
  · simp [firstRow, opcodeMap, reqWord_and_eq_iff, mnemonic, hfull, hset, hget, hexchange]

/-- A row compares the operation select alone, or is one of CTRL (30_encoding R72, R85). -/
theorem opcodeMap_masks : ∀ row ∈ opcodeMap, row.mask.extractLsb' 0 32 = 0#32 ∨
    (row.mask.extractLsb' 32 4 = 0xF#4 ∧ row.pattern.extractLsb' 32 4 = 0x5#4) := by
  decide

theorem firstRow_of_ne_ctrl {op : BitVec 4} (h : op ≠ 0x5#4) (c : CmdWord) :
    firstRow (reqWord op c) = firstRow (reqWord op 0) := by
  refine congrArg (Option.map OpcodeRow.name) (List.find?_congr fun row hrow => ?_)
  rw [Bool.eq_iff_iff, beq_iff_eq, beq_iff_eq, reqWord_and_eq_iff, reqWord_and_eq_iff]
  obtain hmask | ⟨hmask, hpattern⟩ := opcodeMap_masks row hrow
  · simp [hmask]
  · have hfull : op &&& 0xF#4 = op := BitVec.and_allOnes
    simp [hmask, hpattern, hfull, h]

theorem firstRow_reserved : ∀ op : BitVec 4, 0x8#4 ≤ op → firstRow (reqWord op 0) = some "RESERVED" := by decide

/-- Settles O3, by the operation select. -/
theorem decodeFollowsOpcodeMap : Obligations.DecodeFollowsOpcodeMap := by
  intro r
  rw [← reqWord_op_cmd r]
  by_cases hctrl : r.op = 0x5#4
  · rw [decode_ctrl hctrl, hctrl]
    exact firstRow_ctrl r.cmd _
  · rw [firstRow_of_ne_ctrl hctrl]
    obtain h | h | h | h | h | h | h | h | h := op_cases r.op
    · rw [decode_edge h, h]; rfl
    · rw [decode_tick h, h]; rfl
    · rw [decode_read h, h]; rfl
    · rw [decode_cancel h, h]; rfl
    · rw [decode_write h, h]; rfl
    · exact absurd h hctrl
    · rw [decode_init h, h]; rfl
    · rw [decode_teardown h, h]; rfl
    · rw [decode_reserved h]; exact firstRow_reserved r.op h

/-! ### Requests by their words (30_encoding R72, R80, R85) -/

/-- Settles O6, by the operation select: only a CTRL request's operation reads `CMD`. -/
theorem decodeIgnoresCmd : Obligations.DecodeIgnoresCmd := by
  intro p op c d len addr hne
  simp only [decode, op_reqWord, if_neg (show op ≠ 0x5#4 from hne)]
  rfl

/-- Settles O7: the decoder run on each word. -/
theorem decodeSampleWords : Obligations.DecodeSampleWords := by
  unfold Obligations.DecodeSampleWords
  decide

theorem reserved_of_top_bit : ∀ op : BitVec 4, op.getLsbD 3 = true → 0x8#4 ≤ op := by decide

/-- The top bit of the request word is that of its operation select (30_encoding R70, R80). -/
theorem op_ge_of_top_bit {r : Request} (h : r.word.getLsbD 35 = true) : 0x8#4 ≤ r.op := by
  have htop : r.op.getLsbD 3 = true := by simpa [Request.op] using h
  exact reserved_of_top_bit r.op htop

/-- Settles O8: the operation select decodes as reserved, and the meaning of a reserved operation is the refusal. -/
theorem reservedOpIsRefused : Obligations.ReservedOpIsRefused :=
  ⟨fun _ r h => ⟨r.op, decode_reserved (op_ge_of_top_bit h)⟩, fun _ _ => rfl⟩

end Sys2Proof
end

section
/-! SUPPORT. A table word as the next request, the response word, and the responses each step gives (30_encoding R70, R74,
R75). -/

namespace Sys2Proof.Machine

/-! ### Table words (log entry 16) -/

theorem decodeTableWord_some {nbits w : Nat} {i : Instr} (h : decodeTableWord nbits w = some i) :
    decode Params.default (tableRequest nbits w) = i := by
  unfold decodeTableWord at h
  split at h
  · exact Option.some.inj h
  · cases h

/-- Settles O12: the word's request heads the list of moves, and its draws are those the state holds. -/
theorem tableWordRunsNext : Obligations.TableWordRunsNext := by
  intro s nbits w i hcfg hi
  have hok : s.cfg.Ok := hcfg ▸ by decide
  calc step (s.withFetchWord nbits w)
    _ = exec (decode s.cfg (tableRequest nbits w)) s :=
      stepRunsPresentedRequest (s.withFetchWord nbits w) _ s.draws s.moves hok rfl
    _ = exec i s := by rw [hcfg, decodeTableWord_some hi]

/-! ### The response word (30_encoding R74, 60_exceptions R200) -/

@[simp] theorem responseWord_status (r : Response) : (responseWord r).extractLsb' 64 3 = statusCode r.status :=
  extract_append_high ..

@[simp] theorem responseWord_value (r : Response) : (responseWord r).extractLsb' 0 64 = r.value :=
  extract_append_low ..

theorem statusCode_lt (st : Status) : (statusCode st).toNat < 5 := by cases st <;> decide

theorem statusCode_injective : Function.Injective statusCode := by
  intro a b
  cases a <;> cases b <;> decide

/-- Settles O55, by the two fields of the word. -/
theorem responseWordCodes : Obligations.ResponseWordCodes := by
  refine ⟨fun r => ⟨?_, responseWord_status r⟩, fun r => ?_, fun q r h => ⟨?_, ?_⟩⟩
  · rw [responseWord_status, responseWord]
  · rw [responseWord_status]
    exact statusCode_lt r.status
  · apply statusCode_injective
    rw [← responseWord_status, ← responseWord_status, h]
  · rw [← responseWord_value, ← responseWord_value, h]

/-! ### One response for each request (30_encoding R75) -/

/-- The step from `s` to `t` gives the operation `i` its response: EDGE and TICK get none, a READ that waits gets none yet,
a CANCEL that ends a wait gives that READ's response before its own, and a reserved operation is never answered. -/
def Answered (i : Instr) (s t : State) : Prop :=
  match i with
  | .edge | .tick _ => t.responses = s.responses
  | .read _ _ =>
    (t.rdState = .wait ∧ t.responses = s.responses) ∨
      (t.rdState = .idle ∧ ∃ st v, t.responses = s.responses ++ [⟨.read, st, v⟩])
  | .cancel =>
    (s.rdState = .wait ∧ t.responses = s.responses ++ [⟨.read, .interrupted, 0⟩, ⟨.cancel, .ok, 0⟩]) ∨
      (s.rdState = .idle ∧ t.responses = s.responses ++ [⟨.cancel, .ok, 0⟩])
  | .write _ _ => ∃ st v, t.responses = s.responses ++ [⟨.write, st, v⟩]
  | .ctrlSet _ | .ctrlGet _ | .ctrlExchange _ | .ctrlInvalid _ _ =>
    ∃ st, t.responses = s.responses ++ [⟨.ctrl, st, 0⟩]
  | .init => ∃ st, t.responses = s.responses ++ [⟨.init, st, 0⟩]
  | .teardown => t.responses = s.responses ++ [⟨.teardown, .ok, 0⟩]
  | .reserved _ => False

/-- An operation is refused, or it is answered and the refused mark is left as it was. -/
def RefusedOrAnswered (i : Instr) (s t : State) : Prop :=
  t = refuse s ∨ (t.refused = s.refused ∧ Answered i s t)

theorem deliver_answers {n dst : Nat} {s t : State} (h : deliver n dst s = .next t) :
    t.refused = s.refused ∧ t.rdState = .idle ∧ ∃ st v, t.responses = s.responses ++ [⟨.read, st, v⟩] := by
  obtain ⟨bytes, -, rfl⟩ := deliver_cases h
  refine ⟨deliverBytes_refused .., deliverBytes_rdState .., ?_⟩
  rw [deliverBytes_responses]
  split
  · exact ⟨_, _, rfl⟩
  · exact ⟨_, _, rfl⟩

theorem execEdge_answers {s t : State} (h : execEdge s = .next t) : RefusedOrAnswered .edge s t := by
  obtain ⟨-, rfl⟩ | ⟨-, rfl⟩ := execEdge_cases h
  · exact .inr ⟨rfl, rfl⟩
  · exact .inr ⟨rfl, rfl⟩

theorem execRead_answers {n dst : Nat} {s t : State} (h : execRead n dst s = .next t) :
    RefusedOrAnswered (.read n dst) s t := by
  obtain ⟨-, rfl⟩ | ⟨-, -, -, rfl⟩ | ⟨-, -, -, hd⟩ := execRead_cases h
  · exact .inl rfl
  · exact .inr ⟨rfl, .inl ⟨rfl, rfl⟩⟩
  · obtain ⟨href, hidle, hresp⟩ := deliver_answers hd
    exact .inr ⟨href, .inr ⟨hidle, hresp⟩⟩

theorem execCancel_answers {s t : State} (h : execCancel s = .next t) : RefusedOrAnswered .cancel s t := by
  obtain ⟨-, rfl⟩ | ⟨-, hwait, rfl⟩ | ⟨-, hidle, rfl⟩ := execCancel_cases h
  · exact .inl rfl
  · exact .inr ⟨by simp, .inl ⟨hwait, by simp⟩⟩
  · exact .inr ⟨rfl, .inr ⟨hidle, rfl⟩⟩

theorem execWrite_answers {n src : Nat} {s t : State} (h : execWrite n src s = .next t) :
    RefusedOrAnswered (.write n src) s t := by
  obtain ⟨-, rfl⟩ | ⟨-, -, rfl⟩ | ⟨-, bytes, -, rfl⟩ := execWrite_cases h
  · exact .inl rfl
  · exact .inr ⟨rfl, _, _, rfl⟩
  · exact .inr ⟨rfl, _, _, rfl⟩

theorem execCtrlSet_answers {arg : Nat} {s t : State} (h : execCtrlSet arg s = .next t) :
    RefusedOrAnswered (.ctrlSet arg) s t := by
  obtain ⟨-, rfl⟩ | ⟨-, rfl⟩ | ⟨-, bytes, -, rfl⟩ := execCtrlSet_cases h
  · exact .inl rfl
  · exact .inr ⟨rfl, _, rfl⟩
  · exact .inr ⟨rfl, _, rfl⟩

theorem execCtrlGet_answers {arg : Nat} {s t : State} (h : execCtrlGet arg s = .next t) :
    RefusedOrAnswered (.ctrlGet arg) s t := by
  obtain ⟨-, rfl⟩ | ⟨-, rfl⟩ | ⟨-, rfl⟩ | ⟨-, rfl⟩ := execCtrlGet_cases h
  · exact .inl rfl
  all_goals exact .inr ⟨rfl, _, rfl⟩

theorem execCtrlExchange_answers {arg : Nat} {s t : State} (h : execCtrlExchange arg s = .next t) :
    RefusedOrAnswered (.ctrlExchange arg) s t := by
  obtain ⟨-, rfl⟩ | ⟨-, rfl⟩ | ⟨-, bytes, -, rfl | rfl⟩ := execCtrlExchange_cases h
  · exact .inl rfl
  all_goals exact .inr ⟨rfl, _, rfl⟩

theorem execCtrlInvalid_answers (c : CmdWord) (arg : Nat) {s t : State} (h : execCtrlInvalid c arg s = .next t) :
    RefusedOrAnswered (.ctrlInvalid c arg) s t := by
  obtain ⟨-, rfl⟩ | ⟨-, rfl⟩ := execCtrlInvalid_cases c arg h
  · exact .inl rfl
  · exact .inr ⟨rfl, _, rfl⟩

theorem execInit_answers {s t : State} (h : execInit s = .next t) : RefusedOrAnswered .init s t := by
  obtain ⟨-, rfl⟩ | ⟨-, rfl⟩ | ⟨-, rfl⟩ := execInit_cases h
  · exact .inl rfl
  all_goals exact .inr ⟨rfl, _, rfl⟩

theorem execTeardown_answers {s t : State} (h : execTeardown s = .next t) : RefusedOrAnswered .teardown s t := by
  obtain ⟨-, rfl⟩ | ⟨-, -, rfl⟩ := execTeardown_cases h
  · exact .inl rfl
  · exact .inr ⟨rfl, rfl⟩

theorem exec_answers {i : Instr} {s t : State} (h : exec i s = .next t) : RefusedOrAnswered i s t := by
  cases i with
  | edge => exact execEdge_answers h
  | tick k => cases h; exact .inr ⟨rfl, rfl⟩
  | read n dst => exact execRead_answers h
  | cancel => exact execCancel_answers h
  | write n src => exact execWrite_answers h
  | ctrlSet arg => exact execCtrlSet_answers h
  | ctrlGet arg => exact execCtrlGet_answers h
  | ctrlExchange arg => exact execCtrlExchange_answers h
  | ctrlInvalid c arg => exact execCtrlInvalid_answers c arg h
  | init => exact execInit_answers h
  | teardown => exact execTeardown_answers h
  | reserved op => cases h; exact .inl rfl

theorem captureStep_responses {s t : State} (h : captureStep s = .next t) : t.responses = s.responses := by
  obtain ⟨-, ⟨-, rfl⟩ | ⟨-, -, rfl⟩⟩ := captureStep_cases h
  · rfl
  · rfl

/-- Settles O54: of the two ends of an operation only a refusal sets the mark, and it gives no response. -/
theorem eachRequestOneResponse : Obligations.EachRequestOneResponse := by
  refine ⟨fun i s t h hs ht => ?_, fun i s t h hs ht => ?_, fun s t => captureStep_responses, fun s t h => ?_⟩
  · obtain rfl | ⟨hkeep, -⟩ := exec_answers h
    · rfl
    · simp_all
  · obtain rfl | ⟨-, hanswer⟩ := exec_answers h
    · simp at ht
    · exact hanswer
  · obtain ⟨⟨-, hwait, -⟩, hd⟩ := completeStep_cases h
    exact ⟨hwait, (deliver_answers hd).2⟩

end Sys2Proof.Machine
end

section
/-! SUPPORT. Every step keeps the invariant of the machine (10_state R22 to R41, 40_event_buffer R103, R104). -/

namespace Sys2Proof.Machine

/-! ### The operations -/

section
variable {s t : State} (h : Inv s)
include h

theorem execEdge_keeps_inv (he : execEdge s = .next t) : Inv t := by
  obtain ⟨hl, rfl⟩ | ⟨-, rfl⟩ := execEdge_cases he
  · exact h.congr rfl rfl rfl rfl rfl rfl (fun ho => nomatch ho.symm.trans hl) h.offIdle h.hmemWf rfl rfl rfl
      h.ctrlBits h.rdLenBits h.rdAddrBits
  · exact h

theorem execTick_keeps_inv {k : Nat} (he : execTick k s = .next t) : Inv t := by
  cases he
  exact h.congr rfl rfl rfl rfl rfl rfl h.offNoEdge h.offIdle h.hmemWf rfl rfl rfl h.ctrlBits h.rdLenBits h.rdAddrBits

theorem deliver_keeps_inv {n dst : Nat} (hl : s.life = .ready) (hne : s.head ≠ s.tail)
    (hd : deliver n dst s = .next t) : Inv t := by
  obtain ⟨bytes, -, rfl⟩ := deliver_cases hd
  exact deliverBytes_keeps_inv h _ dst hl hne

/-- A READ may come to wait with its operands, so they must have their fields' widths (10_state R33, 43_reader R141). -/
theorem execRead_keeps_inv {n dst : Nat} (hn : n < 2 ^ s.cfg.lenW) (hdst : dst < 2 ^ s.cfg.haddrW)
    (he : execRead n dst s = .next t) : Inv t := by
  obtain ⟨-, rfl⟩ | ⟨hl, -, -, rfl⟩ | ⟨hl, -, hne, hd⟩ := execRead_cases he
  · exact refuse_keeps_inv h
  · exact joinWaitSet_keeps_inv h hl hn hdst
  · exact deliver_keeps_inv h hl hne hd

theorem execCancel_keeps_inv (he : execCancel s = .next t) : Inv t := by
  obtain ⟨-, rfl⟩ | ⟨-, -, rfl⟩ | ⟨-, -, rfl⟩ := execCancel_cases he
  · exact refuse_keeps_inv h
  · exact respond_keeps_inv (respond_keeps_inv (endRead_keeps_inv h) _ _ _) _ _ _
  · exact respond_keeps_inv h _ _ _

theorem execWrite_keeps_inv {n src : Nat} (he : execWrite n src s = .next t) : Inv t := by
  obtain ⟨-, rfl⟩ | ⟨-, -, rfl⟩ | ⟨-, bytes, hb, rfl⟩ := execWrite_cases he
  · exact refuse_keeps_inv h
  · exact respond_keeps_inv h _ _ _
  · exact written_keeps_inv h ((hostRead_some hb).2.trans_le (Nat.min_le_right n _))

theorem execCtrlSet_keeps_inv {arg : Nat} (he : execCtrlSet arg s = .next t) : Inv t := by
  obtain ⟨-, rfl⟩ | ⟨-, rfl⟩ | ⟨-, bytes, -, rfl⟩ := execCtrlSet_cases he
  · exact refuse_keeps_inv h
  · exact respond_keeps_inv h _ _ _
  · exact respond_keeps_inv (ctrlValue_keeps_inv h (ctrlOfBytes_lt s.cfg bytes)) _ _ _

theorem execCtrlGet_keeps_inv {arg : Nat} (he : execCtrlGet arg s = .next t) : Inv t := by
  obtain ⟨-, rfl⟩ | ⟨-, rfl⟩ | ⟨-, rfl⟩ | ⟨-, rfl⟩ := execCtrlGet_cases he
  · exact refuse_keeps_inv h
  · exact respond_keeps_inv h _ _ _
  · exact respond_keeps_inv (hostWritten_keeps_inv h _ _) _ _ _
  · exact respond_keeps_inv (hostFaulted_keeps_inv h _ _) _ _ _

theorem execCtrlExchange_keeps_inv {arg : Nat} (he : execCtrlExchange arg s = .next t) : Inv t := by
  obtain ⟨-, rfl⟩ | ⟨-, rfl⟩ | ⟨-, bytes, -, rfl | rfl⟩ := execCtrlExchange_cases he
  · exact refuse_keeps_inv h
  · exact respond_keeps_inv h _ _ _
  · exact respond_keeps_inv
      (ctrlValue_keeps_inv (hostWritten_keeps_inv h _ _) (Nat.mod_lt _ (Nat.two_pow_pos _))) _ _ _
  · exact respond_keeps_inv (hostFaulted_keeps_inv h _ _) _ _ _

theorem execCtrlInvalid_keeps_inv (c : CmdWord) (arg : Nat) (he : execCtrlInvalid c arg s = .next t) : Inv t := by
  obtain ⟨-, rfl⟩ | ⟨-, rfl⟩ := execCtrlInvalid_cases c arg he
  · exact refuse_keeps_inv h
  · exact respond_keeps_inv h _ _ _

theorem execInit_keeps_inv (he : execInit s = .next t) : Inv t := by
  obtain ⟨-, rfl⟩ | ⟨-, rfl⟩ | ⟨-, rfl⟩ := execInit_cases he
  · exact refuse_keeps_inv h
  · exact respond_keeps_inv h _ _ _
  · exact respond_keeps_inv (initialise_keeps_inv h) _ _ _

theorem execTeardown_keeps_inv (he : execTeardown s = .next t) : Inv t := by
  obtain ⟨-, rfl⟩ | ⟨-, hi, rfl⟩ := execTeardown_cases he
  · exact refuse_keeps_inv h
  · exact respond_keeps_inv (torndown_keeps_inv h hi) _ _ _

/-- Every operation that a request can name keeps the invariant. -/
theorem exec_keeps_inv {i : Instr} (hw : WellFormed s.cfg i = true) (he : exec i s = .next t) : Inv t := by
  cases i with
  | edge => exact execEdge_keeps_inv h he
  | tick k => exact execTick_keeps_inv h he
  | read n dst =>
    simp only [WellFormed, Bool.and_eq_true, decide_eq_true_eq] at hw
    exact execRead_keeps_inv h hw.1 hw.2 he
  | cancel => exact execCancel_keeps_inv h he
  | write n src => exact execWrite_keeps_inv h he
  | ctrlSet arg => exact execCtrlSet_keeps_inv h he
  | ctrlGet arg => exact execCtrlGet_keeps_inv h he
  | ctrlExchange arg => exact execCtrlExchange_keeps_inv h he
  | ctrlInvalid c arg => exact execCtrlInvalid_keeps_inv h c arg he
  | init => exact execInit_keeps_inv h he
  | teardown => exact execTeardown_keeps_inv h he
  | reserved op =>
    cases he
    exact refuse_keeps_inv h

/-! ### The other moves -/

theorem autoStep_keeps_inv {a : AutoStep} (ha : autoStep a s = .next t) : Inv t := by
  cases a with
  | capture =>
    obtain ⟨⟨hl, -⟩, ⟨-, rfl⟩ | ⟨-, -, rfl⟩⟩ := captureStep_cases ha
    · exact clearEdge_keeps_inv h
    · exact captured_keeps_inv h hl
  | complete =>
    obtain ⟨⟨hl, -, hne⟩, hd⟩ := completeStep_cases ha
    exact deliver_keeps_inv h hl hne hd

theorem hostStoreStep_keeps_inv {addr : Nat} {b : Byte} (hs : hostStoreStep addr b s = .next t) : Inv t := by
  cases hs
  exact h.congr rfl rfl rfl rfl rfl rfl h.offNoEdge h.offIdle (hmemPut_wf h.hmemWf addr b) rfl rfl rfl h.ctrlBits
    h.rdLenBits h.rdAddrBits

/-- Every move keeps the invariant: what a request decodes to is well-formed. -/
theorem runMove_keeps_inv {w : MoveKind} (hr : runMove w s = .next t) : Inv t := by
  cases w with
  | request r => exact exec_keeps_inv h (decodedRequestsAreWellFormed s.cfg r) hr
  | auto a => exact autoStep_keeps_inv h hr
  | hostStore addr b => exact hostStoreStep_keeps_inv h hr

theorem step_keeps_inv (hs : step s = .next t) : Inv t := by
  obtain ⟨-, ⟨-, rfl⟩ | ⟨m, rest, -, hr⟩⟩ := step_cases hs
  · exact h
  · exact runMove_keeps_inv (takeMove_keeps_inv h m rest) hr

end

/-- Settles O14, by the kind of the next move and, for a request, its operation. -/
theorem stepKeepsInv : Obligations.StepKeepsInv := fun _ _ => step_keeps_inv

end Sys2Proof.Machine
end

section
/-! SUPPORT. A lap of the Event Buffer: after `N` advances by one record an index is back where it was, and not before, so
`N` admitted CAPTUREs in a row hide themselves (40_event_buffer R100, R107, 42_capture R124, 70_reset R240). -/

namespace Sys2Proof.Machine

/-! ### Advances of an index -/

/-- `advance` by one record: where an index goes when a record is written there. -/
abbrev advanceRecord (p : Params) (i : Nat) : Nat := advance p i p.R

section
variable {p : Params} (hok : p.Ok) {h : Nat} (hlt : h < p.C) (hal : h % p.R = 0)
include hok

theorem C_div_R_mul_R : p.C / p.R * p.R = p.C := Nat.div_mul_cancel (Nat.dvd_of_mod_eq_zero hok.2.1)

include hlt hal

/-- Of an aligned index the advance by one record is the remainder: a step past the capacity reaches it exactly. -/
theorem advanceRecord_eq_mod : advanceRecord p h = (h + p.R) % p.C := by
  have ha := head_access hok hlt hal
  rw [advanceRecord, advance_record_eq ha]
  split
  · next hC => rw [hC, Nat.mod_self]
  · next hC => exact (Nat.mod_eq_of_lt (lt_of_le_of_ne ha.2.2 hC)).symm

theorem advanceRecord_iterate_legal (k : Nat) :
    (advanceRecord p)^[k] h < p.C ∧ (advanceRecord p)^[k] h % p.R = 0 := by
  induction k with
  | zero => exact ⟨hlt, hal⟩
  | succ k ih =>
    rw [Function.iterate_succ_apply']
    exact advance_record hok ih.2

theorem advanceRecord_iterate (k : Nat) : (advanceRecord p)^[k] h = (h + k * p.R) % p.C := by
  induction k with
  | zero => rw [Nat.zero_mul, Nat.add_zero, Nat.mod_eq_of_lt hlt, Function.iterate_zero_apply]
  | succ k ih =>
    obtain ⟨hk, hka⟩ := advanceRecord_iterate_legal hok hlt hal k
    calc (advanceRecord p)^[k + 1] h
      _ = ((advanceRecord p)^[k] h + p.R) % p.C := by
        rw [Function.iterate_succ_apply', advanceRecord_eq_mod hok hk hka]
      _ = (h + (k + 1) * p.R) % p.C := by rw [ih, Nat.mod_add_mod, Nat.add_assoc, Nat.succ_mul]

/-- Of the first `N` advances by one record the `N`th alone brings an index back (40_event_buffer R107). -/
theorem advanceRecord_iterate_eq_self_iff {k : Nat} (hk : 0 < k) (hkN : k ≤ p.C / p.R) :
    (advanceRecord p)^[k] h = h ↔ k = p.C / p.R := by
  have hlap := C_div_R_mul_R hok
  rw [advanceRecord_iterate hok hlt hal]
  refine ⟨fun hback => ?_, fun hN => ?_⟩
  · have hdvd : p.C ∣ k * p.R :=
      (Nat.modEq_zero_iff_dvd).mp (Nat.ModEq.add_left_cancel' h (hback.trans (Nat.mod_eq_of_lt hlt).symm))
    have hR : 0 < p.R := by rw [Ok_R hok]; norm_num
    have hle : p.C / p.R * p.R ≤ k * p.R := hlap.trans_le (Nat.le_of_dvd (Nat.mul_pos hk hR) hdvd)
    exact le_antisymm hkN (Nat.le_of_mul_le_mul_right hle hR)
  · rw [hN, hlap, Nat.add_mod_right, Nat.mod_eq_of_lt hlt]

end

/-- Settles O23: `N` advances come back to the index, and `k < N` of them do not. -/
theorem lapReturnsHead : Obligations.LapReturnsHead := by
  intro p h hok hlt hal
  have hN : 0 < p.C / p.R := Nat.lt_of_lt_of_le Nat.two_pos hok.2.2.1
  exact ⟨(advanceRecord_iterate_eq_self_iff hok hlt hal hN le_rfl).mpr rfl,
    fun k hk hkN hback => hkN.ne ((advanceRecord_iterate_eq_self_iff hok hlt hal hk hkN.le).mp hback)⟩

/-! ### Admitted CAPTUREs in a row -/

theorem captureStep_admitted {s t : State} (h : captureStep s = .next t) (ha : admits s.ticks s = true) :
    t = captured s := by
  obtain ⟨-, ⟨hn, -⟩ | ⟨-, -, ht⟩⟩ := captureStep_cases h
  · exact absurd (ha.symm.trans hn) Bool.noConfusion
  · exact ht

/-- The indices after each of the admitted CAPTUREs: the head has advanced once for each, the tail stands. -/
theorem captures_in_a_row {u t : Nat → State} {n : Nat}
    (hcap : ∀ i < n, Inv (u i) ∧ admits (u i).ticks (u i) = true ∧ captureStep (u i) = .next (t i))
    (hlink : ∀ i, i + 1 < n →
      (u (i + 1)).head = (t i).head ∧ (u (i + 1)).tail = (t i).tail ∧ (u (i + 1)).cfg = (t i).cfg)
    {i : Nat} (hi : i < n) :
    (t i).head = (advanceRecord (u 0).cfg)^[i + 1] (u 0).head ∧ (t i).tail = (u 0).tail ∧
      (t i).cfg = (u 0).cfg := by
  obtain ⟨-, ha, hs⟩ := hcap i hi
  rw [captureStep_admitted hs ha]
  induction i with
  | zero => exact ⟨rfl, rfl, rfl⟩
  | succ i ih =>
    have hi' : i < n := Nat.lt_of_succ_lt hi
    obtain ⟨-, ha', hs'⟩ := hcap i hi'
    obtain ⟨hhead, htail, hcfg⟩ := ih hi' ha' hs'
    obtain ⟨lhead, ltail, lcfg⟩ := hlink i hi
    rw [captureStep_admitted hs' ha'] at lhead ltail lcfg
    refine ⟨?_, ltail.trans htail, lcfg.trans hcfg⟩
    calc (captured (u (i + 1))).head
      _ = advanceRecord (u (i + 1)).cfg (u (i + 1)).head := rfl
      _ = (advanceRecord (u 0).cfg)^[i + 1 + 1] (u 0).head := by
        rw [lhead, lcfg, hhead, hcfg, Function.iterate_succ_apply' _ (i + 1)]

/-- Settles O24: the head after `n` admitted CAPTUREs is `n` advances on, and the tail has not moved. -/
theorem nthCaptureLapsTheBuffer : Obligations.NthCaptureLapsTheBuffer := by
  intro u t n hn hnN hcap hlink
  obtain ⟨hinv, -, hs⟩ := hcap 0 hn
  obtain ⟨⟨hl, -⟩, -⟩ := captureStep_cases hs
  obtain ⟨hhead, htail, -⟩ := captures_in_a_row hcap hlink (Nat.sub_lt hn Nat.one_pos)
  have hlap : (t (n - 1)).head = (u 0).head ↔ n = (u 0).cfg.C / (u 0).cfg.R := by
    rw [hhead, Nat.sub_add_cancel hn]
    exact advanceRecord_iterate_eq_self_iff hinv.cfgOk (hinv.headLt hl) (hinv.headAligned hl) hn hnN
  exact ⟨hlap, fun hN hempty => (hlap.mpr hN).trans (hempty.trans htail.symm)⟩

end Sys2Proof.Machine
end

section
/-! SUPPORT. What the debounce filter lets through: after an admitted CAPTURE the next `MIN_INTERVAL` ticks admit nothing
(41_debounce R110, R113). -/

namespace Sys2Proof.Machine

/-- With an event admitted already, a time fewer than `MIN_INTERVAL` ticks after it is rejected, and no other. -/
theorem admits_eq_false_iff {now : Timestamp} {s : State} (hv : s.dblValid = true) :
    admits now s = false ↔ (now - s.dblLast).toNat < s.cfg.minInterval := by
  rw [admits, hv, Bool.not_true, Bool.false_or, decide_eq_false_iff_not, not_le]

theorem captureStep_rejected {s t : State} (h : captureStep s = .next t) (hn : admits s.ticks s = false) :
    t = clearEdge s := by
  obtain ⟨-, ⟨-, ht⟩ | ⟨ha, -⟩⟩ := captureStep_cases h
  · exact ht
  · exact absurd (ha.symm.trans hn) Bool.noConfusion

/-- Settles O22, by the first CAPTURE's debounce test: once it is admitted, the second measures from its time. -/
theorem debounceAdmitsOneOfTwo : Obligations.DebounceAdmitsOneOfTwo := by
  intro s s' u u' hs hlast hvalid hcfg hu hlt
  obtain ⟨-, ⟨-, hrejected⟩ | ⟨-, -, rfl⟩⟩ := captureStep_cases hs
  case inl => exact .inl hrejected
  case inr =>
    have hu_last : u.dblLast = s.ticks := hlast
    have hu_cfg : u.cfg = s.cfg := hcfg
    have hn : admits u.ticks u = false := (admits_eq_false_iff hvalid).mpr (by rwa [hu_last, hu_cfg])
    exact .inr (captureStep_rejected hu hn)

end Sys2Proof.Machine
end

section
/-! SUPPORT. The environment's inputs: EDGE latches while READY only, and the ticks of TICKs in a row add up modulo `2^64`
(42_capture R120 to R123). -/

namespace Sys2Proof.Machine

/-! ### EDGE -/

theorem execEdge_of_ready {s : State} (hl : s.life = .ready) : execEdge s = .next (latchEdge s) := by
  unfold execEdge
  rw [hl]

/-- Settles O17, by the `life` state. -/
theorem edgeSetsPending : Obligations.EdgeSetsPending := fun _ => ⟨execEdge_of_ready, execEdge_of_off⟩

/-! ### TICK -/

theorem exec_tick (k : Nat) (s : State) :
    exec (.tick k) s = .next { s with ticks := s.ticks + BitVec.ofNat 64 k } := rfl

theorem ticks_advance_toNat (v : Timestamp) (k : Nat) : (v + BitVec.ofNat 64 k).toNat = (v.toNat + k) % 2 ^ 64 := by
  rw [BitVec.toNat_add, BitVec.toNat_ofNat, Nat.add_mod_mod]

/-- Settles O18: the counter's sum is the sum modulo `2^64`, and INIT keeps `ticks` at each of its ends. -/
theorem tickAddsModulo : Obligations.TickAddsModulo :=
  ⟨fun s k => ⟨s.ticks + BitVec.ofNat 64 k, ticks_advance_toNat s.ticks k, exec_tick k s⟩,
    fun _ _ h => (execInit_sameElements h).ticks⟩

theorem exec_tick_zero (s : State) : exec (.tick 0) s = .next s := by
  rw [exec_tick, BitVec.add_zero]

/-- A TICK of `k` after `j` ticks ends where one TICK of `j + k` does. -/
theorem exec_tick_after_ticks (j k : Nat) (s : State) :
    exec (.tick k) { s with ticks := s.ticks + BitVec.ofNat 64 j } = exec (.tick (j + k)) s := by
  simp only [exec_tick, BitVec.ofNat_add, BitVec.add_assoc]

/-- Settles O19, by induction on the number of ticks: the first TICK adds one, the rest adds what one TICK of them does. -/
theorem tickIsRepeatedSingleTicks : Obligations.TickIsRepeatedSingleTicks := by
  intro s k
  induction k generalizing s with
  | zero => exact (exec_tick_zero s).symm
  | succ k ih =>
    calc repeatExec (.tick 1) (k + 1) s
      _ = repeatExec (.tick 1) k { s with ticks := s.ticks + BitVec.ofNat 64 1 } := rfl
      _ = exec (.tick k) { s with ticks := s.ticks + BitVec.ofNat 64 1 } := ih _
      _ = exec (.tick (1 + k)) s := exec_tick_after_ticks 1 k s
      _ = exec (.tick (k + 1)) s := by rw [Nat.add_comm]

end Sys2Proof.Machine
end

section
/-! SUPPORT. A formatted line: the decimal digits of the timestamp, padded with zeros, and a newline (43_reader R143). -/

namespace Sys2Proof.Machine

/-! ### The digits of a timestamp -/

theorem isDigit_of_mem_decimal {v : Timestamp} {b : Byte} (h : b ∈ decimal v) : isDigit b :=
  (mem_decimalAux h).resolve_right List.not_mem_nil

@[simp] theorem decimalValue_decimal (v : Timestamp) : decimalValue (decimal v) = v.toNat := by
  rw [decimal, decimalValue_decimalAux (timestamp_lt v)]
  simp [decimalValue]

theorem decimal_length_pos (v : Timestamp) : 1 ≤ (decimal v).length := by
  simpa [decimal] using length_decimalAux_pos (fuel := 20) v.toNat [] (by norm_num)

/-- A timestamp below `10^k` has at most `k` digits. -/
theorem decimal_length_le_of_lt {v : Timestamp} {k : Nat} (hk : 0 < k) (h : v.toNat < 10 ^ k) :
    (decimal v).length ≤ k := by
  simpa [decimal] using length_decimalAux_le (fuel := 20) h hk []

/-- A timestamp of `10^k` or more has more than `k` digits. -/
theorem lt_decimal_length_of_le {v : Timestamp} {k : Nat} (h : 10 ^ k ≤ v.toNat) : k < (decimal v).length := by
  have hv : v.toNat < 10 ^ (decimal v).length := by
    simpa [decimal] using
      lt_pow_length_decimalAux [] (timestamp_lt v) ((Nat.pow_pos (by norm_num : 0 < 10)).trans_le h)
  exact (Nat.pow_lt_pow_iff_right (by norm_num)).mp (h.trans_lt hv)

/-- A timestamp of more than one digit has no leading zero. -/
theorem decimal_head_ne_zero {v : Timestamp} (h : 1 < (decimal v).length) : (decimal v).head? ≠ some 0x30#8 := by
  have hpos : 0 < v.toNat := by
    by_contra h0
    exact absurd (decimal_length_le_of_lt (v := v) one_pos (by omega)) (by omega)
  exact head_decimalAux hpos (timestamp_lt v) []

/-! ### The digits of a line -/

/-- What stands before the newline of a line: the digits, padded with zeros to `FMT_DIGITS` (43_reader R143). -/
def lineDigits (p : Params) (v : Timestamp) : List Byte :=
  List.replicate (p.fmtDigits - (decimal v).length) 0x30#8 ++ decimal v

theorem fmt_eq_lineDigits (p : Params) (v : Timestamp) : fmt p v = lineDigits p v ++ [0x0A#8] := fmt_eq p v

@[simp] theorem lineDigits_length (p : Params) (v : Timestamp) :
    (lineDigits p v).length = max p.fmtDigits (decimal v).length := by
  simp only [lineDigits, List.length_append, List.length_replicate]
  omega

theorem isDigit_of_mem_lineDigits {p : Params} {v : Timestamp} {b : Byte} (h : b ∈ lineDigits p v) : isDigit b := by
  rcases List.mem_append.mp h with h | h
  · obtain rfl := List.eq_of_mem_replicate h
    decide
  · exact isDigit_of_mem_decimal h

/-- The padding does not change the number a line reads back as. -/
theorem decimalValue_lineDigits (p : Params) (v : Timestamp) : decimalValue (lineDigits p v) = v.toNat := by
  rw [lineDigits, decimalValue_append, decimalValue_zeros, decimalValue_decimal, Nat.zero_mul, Nat.zero_add]

/-- Digits that need no padding are the whole line before its newline. -/
theorem lineDigits_of_le {p : Params} {v : Timestamp} (h : p.fmtDigits ≤ (decimal v).length) :
    lineDigits p v = decimal v := by
  rw [lineDigits, Nat.sub_eq_zero_of_le h, List.replicate_zero, List.nil_append]

/-- Settles O38: the padding adds zeros only up to `FMT_DIGITS`, and the digits themselves begin with none. -/
theorem formattedLineIsDecimal : Obligations.FormattedLineIsDecimal := by
  intro p v
  have hpos := decimal_length_pos v
  refine ⟨lineDigits p v, fmt_eq_lineDigits p v, fun _ => isDigit_of_mem_lineDigits, decimalValue_lineDigits p v, ?_,
    fun hlong => ?_⟩
  · rw [lineDigits_length]
    omega
  · rw [lineDigits_length] at hlong
    rw [lineDigits_of_le (by omega)]
    exact decimal_head_ne_zero (by omega)

/-- Settles O39, by the number of digits of the timestamp. -/
theorem formattedLineLength : Obligations.FormattedLineLength := by
  intro p v hp
  rw [fmt_length, hp]
  refine ⟨fun hv => ?_, fun hv => ?_⟩
  · have := decimal_length_le_of_lt (by norm_num) hv
    omega
  · have := lt_decimal_length_of_le hv
    have := decimal_length_le v
    omega

end Sys2Proof.Machine
end

section
/-! SUPPORT. The Blocking Reader: what READ, COMPLETE and CANCEL do in each case (43_reader R140 to R157). -/

namespace Sys2Proof.Machine

variable {s : State}

/-! ### READ and CANCEL by the state they find -/

theorem execRead_of_refused {n dst : Nat} (h : s.life = .off ∨ s.rdState = .wait) :
    execRead n dst s = .next (refuse s) := if_pos h

theorem execRead_of_idle {n dst : Nat} (hl : s.life = .ready) (hi : s.rdState = .idle) :
    execRead n dst s = if s.head = s.tail then .next (joinWaitSet n dst s) else deliver n dst s :=
  if_neg (by simp [hl, hi])

theorem execRead_of_empty {n dst : Nat} (hl : s.life = .ready) (hi : s.rdState = .idle) (he : s.head = s.tail) :
    execRead n dst s = .next (joinWaitSet n dst s) := (execRead_of_idle hl hi).trans (if_pos he)

theorem execRead_of_data {n dst : Nat} (hl : s.life = .ready) (hi : s.rdState = .idle) (hne : s.head ≠ s.tail) :
    execRead n dst s = deliver n dst s := (execRead_of_idle hl hi).trans (if_neg hne)

theorem execCancel_of_wait (hl : s.life = .ready) (hw : s.rdState = .wait) :
    execCancel s = .next (respond .cancel .ok 0 (respond .read .interrupted 0 (endRead s))) := by
  simp [execCancel, hl, hw]

theorem execCancel_of_idle (hl : s.life = .ready) (hi : s.rdState = .idle) :
    execCancel s = .next (respond .cancel .ok 0 s) := by
  simp [execCancel, hl, hi]

/-- A reader that leaves the WaitSet is idle, and its operands are unspecified (10_state R33). -/
theorem exists_endRead_of_wait (hw : s.rdState = .wait) : ∃ len addr ctr : Nat,
    endRead s = { s with rdState := .idle, rdLen := len, rdAddr := addr, freeCtr := ctr } :=
  ⟨_, _, _, endRead_of_wait hw⟩

/-- Settles O25: the refusal is the first test of both requests. -/
theorem readAndCancelRefused : Obligations.ReadAndCancelRefused := fun _ _ _ =>
  ⟨fun h => execRead_of_refused h.symm, exec_needsReady_of_off rfl⟩

/-- Settles O26: an idle reader's READ tests for emptiness and joins the WaitSet in one step. -/
theorem readOnEmptyJoinsWaitSet : Obligations.ReadOnEmptyJoinsWaitSet := fun _ _ _ => execRead_of_empty

/-- Settles O33, by the `life` state and the reader's state. -/
theorem cancelInterruptsWaitingRead : Obligations.CancelInterruptsWaitingRead := by
  refine fun s => ⟨fun hl hw => ?_, execCancel_of_idle, exec_needsReady_of_off rfl⟩
  obtain ⟨len, addr, ctr, he⟩ := exists_endRead_of_wait hw
  refine ⟨len, addr, ctr, (execCancel_of_wait hl hw).trans ?_⟩
  simp [respond, he]

/-! ### The delivery -/

@[simp] theorem deliveredBytes_length (p : Params) (n : Nat) (v : Timestamp) :
    (deliveredBytes p n v).length = min n (fmt p v).length := List.length_take

/-- A copy of the first `n` bytes of a line succeeds where the host lets it, or where no byte is asked for: a line has at
least its newline (20_memory R58, 43_reader R157). -/
theorem hostWriteOk_deliveredBytes_iff {p : Params} {n : Nat} {v : Timestamp} :
    hostWriteOk (deliveredBytes p n v) s = true ↔ s.draws.writeOk = true ∨ n = 0 := by
  have hline : (fmt p v).length ≠ 0 := by rw [fmt_length]; omega
  have hmin : min n (fmt p v).length = 0 ↔ n = 0 := by omega
  rw [hostWriteOk, deliveredBytes_length, Bool.or_eq_true, beq_iff_eq, hmin, or_comm]

/-- Where the record behind the head is `dbl_last`, a delivery is of its line (40_event_buffer R104). -/
theorem deliver_of_latest (hb : bufRead (prev s.cfg s.head) s.cfg.R s = some (leBytes 8 s.dblLast.toNat)) (n dst : Nat) :
    deliver n dst s = .next (deliverBytes (deliveredBytes s.cfg n s.dblLast) dst s) := by
  rw [deliver_of_bufRead hb, recordValue_leBytes]

/-- What a copy that succeeded leaves in a good state, before the wait ends and the response is given: the bytes at the
destination, and the tail at the head, or at 0 where the head has wrapped (43_reader R145). -/
def delivered (bytes : List Byte) (dst : Nat) (s : State) : State :=
  { s with
    hmem := hmemStore s.cfg s.hmem dst bytes
    tail := if s.tail ≤ s.head then s.head else 0 }

section
variable (h : Inv s) (hl : s.life = .ready)
include h hl

/-- In a good state that is not empty, a delivery is of the line of the last admitted timestamp. -/
theorem Inv.deliver_eq (hne : s.head ≠ s.tail) (n dst : Nat) :
    deliver n dst s = .next (deliverBytes (deliveredBytes s.cfg n s.dblLast) dst s) :=
  deliver_of_latest (h.bufRead_prev hl hne) n dst

/-- In a good state a READ that finds data delivers. -/
theorem Inv.execRead_eq (hi : s.rdState = .idle) (hne : s.head ≠ s.tail) (n dst : Nat) :
    execRead n dst s = .next (deliverBytes (deliveredBytes s.cfg n s.dblLast) dst s) :=
  (execRead_of_data hl hi hne).trans (h.deliver_eq hl hne n dst)

/-- In a good state an enabled COMPLETE delivers to the stored operands. -/
theorem Inv.completeStep_eq (hw : s.rdState = .wait) (hne : s.head ≠ s.tail) :
    completeStep s = .next (deliverBytes (deliveredBytes s.cfg s.rdLen s.dblLast) s.rdAddr s) :=
  (if_pos ⟨hl, hw, hne⟩).trans (h.deliver_eq hl hne _ _)

/-- In a good state a copy that succeeded moves the tail to the head, or to 0 where the head has wrapped. -/
theorem Inv.deliverBytes_ok_eq {bytes : List Byte} (hok : hostWriteOk bytes s = true) (dst : Nat) :
    deliverBytes bytes dst s = respond .read .ok (countValue bytes.length) (endRead (delivered bytes dst s)) := by
  rw [deliverBytes_ok hok, delivered, ← advance_available (h.headLt hl) (h.tailLt hl)]
  rfl

end

/-- A copy of some bytes of a line faults where the host says so. -/
theorem hostWriteOk_deliveredBytes_eq_false {p : Params} {n : Nat} {v : Timestamp} (hw : s.draws.writeOk = false)
    (hn : n ≠ 0) : hostWriteOk (deliveredBytes p n v) s = false := by
  rw [← Bool.not_eq_true, hostWriteOk_deliveredBytes_iff, hw]
  simp [hn]

/-! ### Deliveries to a READ -/

/-- Settles O27: the READ delivers, the copy succeeds, and an idle reader has no wait to end. -/
theorem readDeliversLatestLine : Obligations.ReadDeliversLatestLine := by
  intro s n dst h hl hi hne hw
  refine (h.execRead_eq hl hi hne n dst).trans (congrArg _ ?_)
  rw [h.deliverBytes_ok_eq hl (hostWriteOk_deliveredBytes_iff.mpr hw),
    endRead_of_idle (s := delivered _ dst s) hi, deliveredBytes_length]
  rfl

/-- Settles O28: the READ delivers, the copy faults, and an idle reader has no wait to end. -/
theorem readCopyFaultKeepsTail : Obligations.ReadCopyFaultKeepsTail := by
  intro s n dst h hl hi hne hw hn
  refine ⟨faultedBytes (deliveredBytes s.cfg n s.dblLast).length s, s.freeCtr + 1, ?_,
    (h.execRead_eq hl hi hne n dst).trans (congrArg _ ?_)⟩
  · rw [faultedBytes_length, deliveredBytes_length]
  · rw [deliverBytes_fault (hostWriteOk_deliveredBytes_eq_false hw hn), endRead_of_idle (s := hostFaulted dst _ s) hi]
    rfl

/-- Settles O30: a READ of no bytes stores none and counts 0. -/
theorem readOfNoBytesStillDrains : Obligations.ReadOfNoBytesStillDrains := by
  intro s dst h hl hi hne
  have hread := readDeliversLatestLine s 0 dst h hl hi hne (.inr rfl)
  rwa [Nat.zero_min] at hread

/-- Settles O32: the first READ leaves the tail at 0, behind the head, and `dbl_last` as it was, so the second delivers. -/
theorem wrappedReadDeliversTwice : Obligations.WrappedReadDeliversTwice := by
  intro s n m a b h hl hi hlt hw
  have hne : s.head ≠ s.tail := hlt.ne
  have hread := readDeliversLatestLine s n a h hl hi hne (.inl hw)
  rw [if_neg (Nat.not_le.mpr hlt)] at hread
  refine ⟨_, hread, rfl, rfl, fun hpos => ?_⟩
  have ht := deliver_keeps_inv h hl hne ((execRead_of_data hl hi hne).symm.trans hread)
  have htail : (if 0 ≤ s.head then s.head else 0) = s.head := if_pos s.head.zero_le
  exact ⟨_, readDeliversLatestLine _ m b ht hl hi hpos.ne' (.inl hw), htail, rfl⟩

/-! ### Deliveries to a waiting READ -/

/-- Settles O29, by whether the copy succeeds. -/
theorem completeDeliversStoredRead : Obligations.CompleteDeliversStoredRead := by
  intro s h hl hw hne
  have hcomplete := h.completeStep_eq hl hw hne
  refine ⟨fun hok => ?_, fun hfault hn => ?_⟩
  · rw [h.deliverBytes_ok_eq hl (hostWriteOk_deliveredBytes_iff.mpr hok)] at hcomplete
    obtain ⟨len, addr, ctr, he⟩ := exists_endRead_of_wait
      (s := delivered (deliveredBytes s.cfg s.rdLen s.dblLast) s.rdAddr s) hw
    refine ⟨len, addr, ctr, hcomplete.trans ?_⟩
    rw [he, deliveredBytes_length]
    rfl
  · rw [deliverBytes_fault (hostWriteOk_deliveredBytes_eq_false hfault hn)] at hcomplete
    obtain ⟨len, addr, ctr, he⟩ := exists_endRead_of_wait
      (s := hostFaulted s.rdAddr (deliveredBytes s.cfg s.rdLen s.dblLast) s) hw
    refine ⟨faultedBytes (deliveredBytes s.cfg s.rdLen s.dblLast).length s, len, addr, ctr, ?_, hcomplete.trans ?_⟩
    · rw [faultedBytes_length, deliveredBytes_length]
    · rw [he]
      rfl

/-- A delivery to a waiting reader leaves what one to an idle reader does, but for what is unspecified. -/
theorem deliverBytes_of_wait (hw : s.rdState = .wait) (bytes : List Byte) (dst : Nat) : ∃ len addr ctr : Nat,
    deliverBytes bytes dst s =
      { deliverBytes bytes dst { s with rdState := .idle } with rdLen := len, rdAddr := addr, freeCtr := ctr } := by
  cases hok : hostWriteOk bytes s with
  | true =>
    obtain ⟨len, addr, ctr, he⟩ := exists_endRead_of_wait (s := drain (hostWritten dst bytes s)) hw
    refine ⟨len, addr, ctr, ?_⟩
    rw [deliverBytes_ok hok, deliverBytes_ok (s := { s with rdState := .idle }) hok, he]
    rfl
  | false =>
    obtain ⟨len, addr, ctr, he⟩ := exists_endRead_of_wait (s := hostFaulted dst bytes s) hw
    refine ⟨len, addr, ctr, ?_⟩
    rw [deliverBytes_fault hok, deliverBytes_fault (s := { s with rdState := .idle }) hok, he]
    rfl

/-- Settles O36: both deliver the same bytes to the same place. -/
theorem completeEqualsFreshRead : Obligations.CompleteEqualsFreshRead := by
  intro s h hl hw hne
  have hidle : Inv { s with rdState := .idle } := { h with offIdle := fun _ => rfl }
  obtain ⟨len, addr, ctr, hd⟩ := deliverBytes_of_wait hw (deliveredBytes s.cfg s.rdLen s.dblLast) s.rdAddr
  exact ⟨_, _, len, addr, ctr, h.completeStep_eq hl hw hne, hidle.execRead_eq hl rfl hne s.rdLen s.rdAddr, hd⟩

theorem completeStep_of_not_enabled (he : ¬completeEnabled s) :
    completeStep s = .refused (.notEnabled .complete) := if_neg he

/-- An idle reader has no READ to complete. -/
theorem not_completeEnabled_of_idle (hi : s.rdState = .idle) : ¬completeEnabled s := by
  rintro ⟨-, hw, -⟩
  exact nomatch hw.symm.trans hi

/-- Settles O34: whichever comes first leaves the reader idle. -/
theorem completeAndCancelEitherOrder : Obligations.CompleteAndCancelEitherOrder := by
  intro s h hl hw hne
  refine ⟨⟨_, h.completeStep_eq hl hw hne, ?_⟩, ⟨_, execCancel_of_wait hl hw, ?_⟩⟩
  · exact execCancel_of_idle ((deliverBytes_life ..).trans hl) (deliverBytes_rdState ..)
  · have hn := not_completeEnabled_of_idle (s := respond .cancel .ok 0 (respond .read .interrupted 0 (endRead s)))
      (endRead_rdState s)
    exact ⟨by simp, by simp, by simp, by simp, hn, completeStep_of_not_enabled hn⟩

/-! ### A READ that waits for the next event -/

@[simp] theorem captured_head (s : State) : (captured s).head = advance s.cfg s.head s.cfg.R := rfl

/-- An admitted CAPTURE neither reads nor writes the reader: it commutes with a READ that joins the WaitSet. -/
theorem captured_joinWaitSet (n dst : Nat) (s : State) :
    captured (joinWaitSet n dst s) = joinWaitSet n dst (captured s) := rfl

/-- An admitted CAPTURE moves the head of a good state. -/
theorem captured_head_ne (h : Inv s) (hl : s.life = .ready) : (captured s).head ≠ s.head := by
  have hC := Ok_C_ge h.cfgOk
  have hR := Ok_R h.cfgOk
  have hlt := h.headLt hl
  rw [captured_head, advance_record_eq (h.head_access hl)]
  split <;> omega

/-- Once one record has been written into an empty buffer, what is available reaches from the old head to the new one, also
where that is 0. -/
theorem advance_available_captured (h : Inv s) (hl : s.life = .ready) :
    advance s.cfg s.head (available s.cfg (captured s).head s.head) = (captured s).head := by
  have hlt := (advance_record h.cfgOk (h.headAligned hl)).1
  rw [captured_head, advance_available hlt (h.headLt hl), advance_record_eq (h.head_access hl)]
  split <;> split <;> omega

/-- Settles O37: the CAPTURE's record is the latest when COMPLETE runs, and all there is. -/
theorem blockedReadGetsNextEvent : Obligations.BlockedReadGetsNextEvent := by
  intro s n dst h hl hi he hp ha hw
  have hne : (captured s).head ≠ (captured s).tail := he ▸ captured_head_ne h hl
  have hlatest := (captured_keeps_inv h hl).bufRead_prev hl hne
  have hcapture : captureStep (joinWaitSet n dst s) = .next (joinWaitSet n dst (captured s)) := by
    rw [captureStep_eq (s := joinWaitSet n dst s) ⟨hl, hp⟩ (h.head_access hl), captured_joinWaitSet]
    exact congrArg _ (if_pos ha)
  have hcomplete : completeStep (joinWaitSet n dst (captured s)) =
      .next (deliverBytes (deliveredBytes s.cfg n s.ticks) dst (joinWaitSet n dst (captured s))) :=
    (if_pos ⟨hl, rfl, hne⟩).trans (deliver_of_latest (s := joinWaitSet n dst (captured s)) hlatest n dst)
  have hok : hostWriteOk (deliveredBytes s.cfg n s.ticks) (joinWaitSet n dst (captured s)) = true :=
    hostWriteOk_deliveredBytes_iff.mpr (.inl hw)
  refine ⟨_, _, _, execRead_of_empty hl hi he, hcapture, hcomplete, rfl, rfl, ?_, ?_, deliverBytes_rdState .., ?_⟩
  · rw [deliverBytes_responses, if_pos hok, deliveredBytes_length]
    rfl
  · rw [deliverBytes_hmem, if_pos hok]
    rfl
  · rw [deliverBytes_tail, if_pos hok, deliverBytes_head]
    change advance s.cfg s.tail (available s.cfg (captured s).head s.tail) = (captured s).head
    rw [← he, advance_available_captured h hl]

end Sys2Proof.Machine
end

section
/-! SUPPORT. How far a delivery moves the tail: forward in the ring, and never past the head (43_reader R145, R152). -/

namespace Sys2Proof.Machine

/-! ### Index arithmetic -/

theorem available_pos {p : Params} {hd tl : Nat} (ht : tl < p.C) (hne : hd ≠ tl) : 0 < available p hd tl := by
  unfold available
  split <;> omega

section
variable {p : Params} {hd tl : Nat} (hh : hd < p.C) (ht : tl < p.C)
include hh ht

/-- A drain is an advance in the circular sense. -/
theorem advance_available_eq_mod : advance p tl (available p hd tl) = (tl + available p hd tl) % p.C := by
  rw [advance_available hh ht, available]
  split
  · next hle => rw [Nat.add_sub_cancel' hle, Nat.mod_eq_of_lt hh]
  · rw [Nat.add_sub_cancel' ht.le, Nat.mod_self]

/-- No more is available than the distance from the tail to the head around the ring. -/
theorem available_le_distance : available p hd tl ≤ (hd + p.C - tl) % p.C := by
  unfold available
  split
  · rw [show hd + p.C - tl = hd - tl + p.C by omega, Nat.add_mod_right, Nat.mod_eq_of_lt (by omega)]
  · rw [Nat.mod_eq_of_lt (by omega)]
    omega

end

/-! ### The tail after a delivery -/

/-- A READ that finds data and is answered delivered. -/
theorem deliver_of_execRead {n dst : Nat} {s t : State} (h : execRead n dst s = .next t) (hne : s.head ≠ s.tail)
    (hanswered : t.responses ≠ s.responses) : deliver n dst s = .next t := by
  obtain ⟨-, rfl⟩ | ⟨-, -, he, -⟩ | ⟨-, -, -, hd⟩ := execRead_cases h
  · exact absurd rfl hanswered
  · exact absurd he hne
  · exact hd

/-- A delivery that answers OK has moved the tail by what was available. -/
theorem deliver_ok_tail {n dst : Nat} {s t : State} {v : BitVec 64} (h : deliver n dst s = .next t)
    (hok : t.responses = s.responses ++ [⟨.read, .ok, v⟩]) :
    t.tail = advance s.cfg s.tail (available s.cfg s.head s.tail) := by
  obtain ⟨bytes, -, rfl⟩ := deliver_cases h
  rw [deliverBytes_tail]
  rw [deliverBytes_responses] at hok
  split at hok
  · next hcopy => exact if_pos hcopy
  · simp at hok

/-- Settles O31: the step delivered, so it kept the invariant and moved the tail by what was available. -/
theorem deliveryMovesTailForward : Obligations.DeliveryMovesTailForward := by
  intro s t n dst v h hl hne hstep hok
  obtain ⟨n', dst', hd⟩ : ∃ n' dst', deliver n' dst' s = .next t := by
    rcases hstep with hread | hcomplete
    · exact ⟨n, dst, deliver_of_execRead hread hne (by simp [hok])⟩
    · exact ⟨_, _, (completeStep_cases hcomplete).2⟩
  have ht : Inv t := deliver_keeps_inv h hl hne hd
  have hlt : t.life = .ready := (deliver_sameEventPath hd).life.trans hl
  have hcfg : t.cfg = s.cfg := (deliver_sameElements hd).cfg
  exact ⟨hcfg ▸ ht.tailLt hlt, hcfg ▸ ht.tailAligned hlt,
    (deliver_ok_tail hd hok).trans (advance_available_eq_mod (h.headLt hl) (h.tailLt hl)),
    available_pos (h.tailLt hl) hne, available_le_distance (h.headLt hl) (h.tailLt hl)⟩

end Sys2Proof.Machine
end

section
/-! SUPPORT. Which steps end the wait of a READ: COMPLETE and CANCEL only (43_reader R146, R149, R150). -/

namespace Sys2Proof.Machine

/-- `t` has the reader of `s`: its state and its operands. -/
structure SameReader (s t : State) : Prop where
  rdState : t.rdState = s.rdState
  rdLen : t.rdLen = s.rdLen
  rdAddr : t.rdAddr = s.rdAddr

theorem SameReader.refl (s : State) : SameReader s s := ⟨rfl, rfl, rfl⟩

theorem refuse_sameReader (s : State) : SameReader s (refuse s) := ⟨rfl, rfl, rfl⟩

theorem respond_sameReader (k : ReqKind) (st : Status) (v : BitVec 64) (s : State) :
    SameReader s (respond k st v s) := ⟨rfl, rfl, rfl⟩

/-! ### The operations that leave the reader alone in every state -/

theorem execEdge_sameReader {s t : State} (h : execEdge s = .next t) : SameReader s t := by
  obtain ⟨-, rfl⟩ | ⟨-, rfl⟩ := execEdge_cases h
  · exact ⟨rfl, rfl, rfl⟩
  · exact .refl _

theorem execWrite_sameReader {n src : Nat} {s t : State} (h : execWrite n src s = .next t) : SameReader s t := by
  obtain ⟨-, rfl⟩ | ⟨-, -, rfl⟩ | ⟨-, bytes, -, rfl⟩ := execWrite_cases h
  · exact refuse_sameReader s
  · exact respond_sameReader ..
  · exact ⟨rfl, rfl, rfl⟩

theorem execCtrlSet_sameReader {arg : Nat} {s t : State} (h : execCtrlSet arg s = .next t) : SameReader s t := by
  obtain ⟨-, rfl⟩ | ⟨-, rfl⟩ | ⟨-, bytes, -, rfl⟩ := execCtrlSet_cases h
  · exact refuse_sameReader s
  · exact respond_sameReader ..
  · exact ⟨rfl, rfl, rfl⟩

theorem execCtrlGet_sameReader {arg : Nat} {s t : State} (h : execCtrlGet arg s = .next t) : SameReader s t := by
  obtain ⟨-, rfl⟩ | ⟨-, rfl⟩ | ⟨-, rfl⟩ | ⟨-, rfl⟩ := execCtrlGet_cases h
  · exact refuse_sameReader s
  · exact respond_sameReader ..
  all_goals exact ⟨rfl, rfl, rfl⟩

theorem execCtrlExchange_sameReader {arg : Nat} {s t : State} (h : execCtrlExchange arg s = .next t) :
    SameReader s t := by
  obtain ⟨-, rfl⟩ | ⟨-, rfl⟩ | ⟨-, bytes, -, rfl | rfl⟩ := execCtrlExchange_cases h
  · exact refuse_sameReader s
  · exact respond_sameReader ..
  all_goals exact ⟨rfl, rfl, rfl⟩

theorem execCtrlInvalid_sameReader (c : CmdWord) (arg : Nat) {s t : State} (h : execCtrlInvalid c arg s = .next t) :
    SameReader s t := by
  obtain ⟨-, rfl⟩ | ⟨-, rfl⟩ := execCtrlInvalid_cases c arg h
  · exact refuse_sameReader s
  · exact respond_sameReader ..

theorem captureStep_sameReader {s t : State} (h : captureStep s = .next t) : SameReader s t := by
  obtain ⟨-, ⟨-, rfl⟩ | ⟨-, -, rfl⟩⟩ := captureStep_cases h
  all_goals exact ⟨rfl, rfl, rfl⟩

theorem hostStoreStep_sameReader {addr : Nat} {b : Byte} {s t : State} (h : hostStoreStep addr b s = .next t) :
    SameReader s t := by
  cases h
  exact ⟨rfl, rfl, rfl⟩

/-! ### While a READ waits -/

/-- In a good state a READ waits only while READY. -/
theorem Inv.ready_of_wait {s : State} (h : Inv s) (hw : s.rdState = .wait) : s.life = .ready := by
  cases hl : s.life with
  | ready => rfl
  | off => exact nomatch hw.symm.trans (h.offIdle hl)

/-- While a READ waits, READ, INIT and TEARDOWN are refused, and only a CANCEL touches the reader. -/
theorem exec_sameReader_of_wait {i : Instr} {s t : State} (hl : s.life = .ready) (hw : s.rdState = .wait)
    (hi : i ≠ .cancel) (h : exec i s = .next t) : SameReader s t := by
  cases i with
  | edge => exact execEdge_sameReader h
  | tick k =>
    cases h
    exact ⟨rfl, rfl, rfl⟩
  | read n dst =>
    obtain rfl := Host.Outcome.next.inj ((execRead_of_refused (.inr hw)).symm.trans h)
    exact refuse_sameReader s
  | cancel => exact absurd rfl hi
  | write n src => exact execWrite_sameReader h
  | ctrlSet arg => exact execCtrlSet_sameReader h
  | ctrlGet arg => exact execCtrlGet_sameReader h
  | ctrlExchange arg => exact execCtrlExchange_sameReader h
  | ctrlInvalid c arg => exact execCtrlInvalid_sameReader c arg h
  | init =>
    obtain rfl := Host.Outcome.next.inj ((if_pos hl).symm.trans h)
    exact refuse_sameReader s
  | teardown =>
    obtain rfl := Host.Outcome.next.inj ((if_pos (.inr hw)).symm.trans h)
    exact refuse_sameReader s
  | reserved op =>
    cases h
    exact refuse_sameReader s

/-- Taking the move off the list leaves the reader alone. -/
theorem SameReader.of_takeMove {m : Move} {rest : List Move} {s t : State}
    (h : SameReader (takeMove m rest s) t) : SameReader s t := ⟨h.rdState, h.rdLen, h.rdAddr⟩

theorem step_sameReader_of_wait {s t : State} (h : step s = .next t) (hl : s.life = .ready) (hw : s.rdState = .wait)
    (hc : nextRequest s ≠ some .cancel) (ha : nextAuto s ≠ some .complete) : SameReader s t := by
  obtain ⟨-, ⟨-, rfl⟩ | ⟨⟨what, draws⟩, rest, hm, hr⟩⟩ := step_cases h
  · exact .refl _
  · refine SameReader.of_takeMove (m := ⟨what, draws⟩) (rest := rest) ?_
    cases what with
    | request r =>
      rw [nextRequest, hm] at hc
      exact exec_sameReader_of_wait hl hw (fun e => hc (congrArg some e)) hr
    | auto a =>
      rw [nextAuto, hm] at ha
      cases a with
      | capture => exact captureStep_sameReader hr
      | complete => exact absurd rfl ha
    | hostStore addr b => exact hostStoreStep_sameReader hr

/-- Settles O35, by the kind of the next move and, for a request, its operation. -/
theorem waitingReadStaysOutstanding : Obligations.WaitingReadStaysOutstanding := by
  intro s t h hw hs hc ha
  have r := step_sameReader_of_wait hs (h.ready_of_wait hw) hw hc ha
  exact ⟨r.rdState.trans hw, r.rdLen, r.rdAddr⟩

end Sys2Proof.Machine
end

section
/-! SUPPORT. What the steps that copy to the host store, and the rest they leave alone (20_memory R58, R59, 43_reader R145,
44_control R164, R166). -/

namespace Sys2Proof.Machine

/-! ### The range of a store -/

/-- Host memory went from that of `s` to that of `t` by a store of at most `n` bytes at `a`. -/
def StoresWithin (a n : Nat) (s t : State) : Prop :=
  ∃ bytes : List Byte, bytes.length ≤ n ∧ t.hmem = hmemStore s.cfg s.hmem a bytes

/-- A step that stores nothing stores within any range. -/
theorem StoresWithin.of_hmem_eq {a n : Nat} {s t : State} (h : t.hmem = s.hmem) : StoresWithin a n s t :=
  ⟨[], Nat.zero_le _, h⟩

/-- A byte outside the range of a store reads as before. -/
theorem StoresWithin.hmemByte_other {a n : Nat} {s t : State} (h : StoresWithin a n s t) (hwf : Memory.wf s.cfg s.hmem)
    {x : Nat} (hx : ∀ k < n, hostAddr s.cfg x ≠ hostAddr s.cfg (a + k)) :
    hmemByte s.cfg t.hmem x = hmemByte s.cfg s.hmem x := by
  obtain ⟨bytes, hlen, hmem⟩ := h
  rw [hmem, hmemByte_store_other hwf fun i hi => hx i (hi.trans_le hlen)]

/-- A delivery stores within the range of the bytes it delivers. -/
theorem deliver_storesWithin {n dst : Nat} {s t : State} (h : deliver n dst s = .next t) :
    ∃ bytes, bufRead (prev s.cfg s.head) s.cfg.R s = some bytes ∧
      StoresWithin dst (deliveredBytes s.cfg n (recordValue bytes)).length s t := by
  obtain ⟨bytes, hb, rfl⟩ := deliver_cases h
  refine ⟨bytes, hb, _, ?_, deliverBytes_hmem ..⟩
  split
  · exact le_rfl
  · exact (faultedBytes_length ..).le

/-- A READ delivers, or stores nothing. -/
theorem execRead_delivers_or_hmem {n dst : Nat} {s t : State} (h : execRead n dst s = .next t) :
    deliver n dst s = .next t ∨ t.hmem = s.hmem := by
  obtain ⟨-, rfl⟩ | ⟨-, -, -, rfl⟩ | ⟨-, -, -, hd⟩ := execRead_cases h
  · exact .inr rfl
  · exact .inr rfl
  · exact .inl hd

theorem hostWritten_storesWithin (a : Nat) (v : Nat) (s : State) :
    StoresWithin a s.cfg.ctrlLen s (hostWritten a (ctrlBytes s.cfg v) s) :=
  ⟨_, (ctrlBytes_length ..).le, rfl⟩

theorem hostFaulted_storesWithin (a : Nat) (v : Nat) (s : State) :
    StoresWithin a s.cfg.ctrlLen s (hostFaulted a (ctrlBytes s.cfg v) s) :=
  ⟨_, ((faultedBytes_length ..).trans (ctrlBytes_length ..)).le, rfl⟩

theorem execCtrlGet_storesWithin {arg : Nat} {s t : State} (h : execCtrlGet arg s = .next t) :
    StoresWithin arg s.cfg.ctrlLen s t := by
  obtain ⟨-, rfl⟩ | ⟨-, rfl⟩ | ⟨-, rfl⟩ | ⟨-, rfl⟩ := execCtrlGet_cases h
  · exact .of_hmem_eq rfl
  · exact .of_hmem_eq rfl
  · exact hostWritten_storesWithin ..
  · exact hostFaulted_storesWithin ..

theorem execCtrlExchange_storesWithin {arg : Nat} {s t : State} (h : execCtrlExchange arg s = .next t) :
    StoresWithin arg s.cfg.ctrlLen s t := by
  obtain ⟨-, rfl⟩ | ⟨-, rfl⟩ | ⟨-, bytes, -, rfl | rfl⟩ := execCtrlExchange_cases h
  · exact .of_hmem_eq rfl
  · exact .of_hmem_eq rfl
  · exact hostWritten_storesWithin ..
  · exact hostFaulted_storesWithin ..

/-! ### The moves and the draws -/

/-- `t` has the moves still to come and the host's answers of `s`. -/
def SameSchedule (s t : State) : Prop := t.moves = s.moves ∧ t.draws = s.draws

theorem deliver_sameSchedule {n dst : Nat} {s t : State} (h : deliver n dst s = .next t) : SameSchedule s t := by
  obtain ⟨bytes, -, rfl⟩ := deliver_cases h
  exact ⟨deliverBytes_moves .., deliverBytes_draws ..⟩

theorem execRead_sameSchedule {n dst : Nat} {s t : State} (h : execRead n dst s = .next t) : SameSchedule s t := by
  obtain ⟨-, rfl⟩ | ⟨-, -, -, rfl⟩ | ⟨-, -, -, hd⟩ := execRead_cases h
  · exact ⟨rfl, rfl⟩
  · exact ⟨rfl, rfl⟩
  · exact deliver_sameSchedule hd

theorem execCtrlGet_sameSchedule {arg : Nat} {s t : State} (h : execCtrlGet arg s = .next t) : SameSchedule s t := by
  obtain ⟨-, rfl⟩ | ⟨-, rfl⟩ | ⟨-, rfl⟩ | ⟨-, rfl⟩ := execCtrlGet_cases h
  all_goals exact ⟨rfl, rfl⟩

theorem execCtrlExchange_sameSchedule {arg : Nat} {s t : State} (h : execCtrlExchange arg s = .next t) :
    SameSchedule s t := by
  obtain ⟨-, rfl⟩ | ⟨-, rfl⟩ | ⟨-, bytes, -, rfl | rfl⟩ := execCtrlExchange_cases h
  all_goals exact ⟨rfl, rfl⟩

/-! ### The frames of the two kinds of storing steps -/

/-- READ and COMPLETE: a delivery, or a step that stores nothing, with what either leaves alone. -/
theorem readingStep_frame {n dst : Nat} {s t : State}
    (h : execRead n dst s = .next t ∨ (completeStep s = .next t ∧ n = s.rdLen ∧ dst = s.rdAddr)) :
    (deliver n dst s = .next t ∨ t.hmem = s.hmem) ∧ SameSchedule s t ∧ SameElements s t ∧
      SameEventPath { s with tail := t.tail, rdState := t.rdState } t := by
  obtain hr | ⟨hc, rfl, rfl⟩ := h
  · exact ⟨execRead_delivers_or_hmem hr, execRead_sameSchedule hr, execRead_sameElements hr, execRead_sameEventPath hr⟩
  · have hd := (completeStep_cases hc).2
    exact ⟨.inl hd, deliver_sameSchedule hd, deliver_sameElements hd, deliver_sameEventPath hd⟩

/-- CTRL.GET and CTRL.EXCHANGE: a store within the range of a ControlValue, with what either leaves alone. -/
theorem ctrlStoringStep_frame {arg : Nat} {s t : State}
    (h : execCtrlGet arg s = .next t ∨ execCtrlExchange arg s = .next t) :
    StoresWithin arg s.cfg.ctrlLen s t ∧ SameSchedule s t ∧ SameReader s t ∧ SameEventPath s t ∧
      SameElements { s with ctrlValue := t.ctrlValue } t := by
  obtain hg | hx := h
  · have e := execCtrlGet_sameElements hg
    exact ⟨execCtrlGet_storesWithin hg, execCtrlGet_sameSchedule hg, execCtrlGet_sameReader hg,
      execCtrlGet_sameEventPath hg, { e with ctrlValue := rfl }⟩
  · exact ⟨execCtrlExchange_storesWithin hx, execCtrlExchange_sameSchedule hx, execCtrlExchange_sameReader hx,
      execCtrlExchange_sameEventPath hx, execCtrlExchange_sameElements hx⟩

/-- Settles O59: the two frames, element by element. -/
theorem storingStepsFrame : Obligations.StoringStepsFrame := by
  refine ⟨fun s t n dst h => ?_, fun s t arg h => ?_⟩
  · obtain ⟨hstore, ⟨moves, draws⟩, e, p⟩ := readingStep_frame h
    refine ⟨⟨p.life, p.buf, p.bufGen, p.head, p.dblLast, p.dblValid, p.irqPending, e.ctrlValue, e.msg, e.msgLen,
      e.ticks, e.cfg, moves, draws⟩, fun hwf x hx => ?_⟩
    obtain hd | hkeep := hstore
    · obtain ⟨bytes, hb, hwithin⟩ := deliver_storesWithin hd
      exact hwithin.hmemByte_other hwf (hx bytes hb)
    · rw [hkeep]
  · obtain ⟨hwithin, ⟨moves, draws⟩, r, p, e⟩ := ctrlStoringStep_frame h
    exact ⟨⟨p.life, p.buf, p.bufGen, p.head, p.tail, p.dblLast, p.dblValid, p.irqPending, r.rdState, r.rdLen, r.rdAddr,
      e.msg, e.msgLen, e.ticks, e.cfg, moves, draws⟩, fun hg => (execCtrlGet_sameElements hg).ctrlValue,
      fun hwf x hx => hwithin.hmemByte_other hwf hx⟩

end Sys2Proof.Machine
end

section
/-! SUPPORT. The Control Channel: what each command does in each of its cases, and what a command that answered OK went
through (44_control R160 to R168). -/

namespace Sys2Proof.Machine

/-! ### What the host allows for the bytes of a ControlValue -/

/-- A ControlValue has no bytes only where it has no bits (20_memory R59). -/
theorem ctrlLen_eq_zero_iff {p : Params} : p.ctrlLen = 0 ↔ p.ctrlW = 0 := by
  unfold Params.ctrlLen
  omega

/-- The accessibility checks of a command of direction `d` pass (20_memory R56, 44_control R161). -/
abbrev ctrlAccessible (d : BitVec 2) (s : State) : Prop :=
  (d.getLsbD 0 = true → s.draws.accToBlock = true ∨ s.cfg.ctrlW = 0) ∧
    (d.getLsbD 1 = true → s.draws.accToHost = true ∨ s.cfg.ctrlW = 0)

/-- The copy-in of a ControlValue succeeds (20_memory R57). -/
abbrev ctrlReadable (s : State) : Prop := s.draws.readOk = true ∨ s.cfg.ctrlW = 0

/-- The copy-out of a ControlValue succeeds (20_memory R58). -/
abbrev ctrlWritable (s : State) : Prop := s.draws.writeOk = true ∨ s.cfg.ctrlW = 0

/-- The ControlValue that a copy-in from `arg` assembles: by `ctrlAt_load` the one that stands there. -/
def ctrlLoaded (arg : Nat) (s : State) : Nat := ctrlOfBytes s.cfg (hmemLoad s.cfg s.hmem arg s.cfg.ctrlLen)

section
variable {arg : Nat} {s : State}

theorem ctrlAt_ctrlLoaded (arg : Nat) (s : State) : ctrlAt s arg (ctrlLoaded arg s) := ctrlAt_load s arg

theorem ctrlAccessible_dirToBlock_iff :
    ctrlAccessible dirToBlock s ↔ s.draws.accToBlock = true ∨ s.cfg.ctrlW = 0 := by
  simp [ctrlAccessible, dirToBlock]

theorem ctrlAccessible_dirToHost_iff :
    ctrlAccessible dirToHost s ↔ s.draws.accToHost = true ∨ s.cfg.ctrlW = 0 := by
  simp [ctrlAccessible, dirToHost]

theorem ctrlAccessible_dirBoth_iff :
    ctrlAccessible dirBoth s ↔ (s.draws.accToBlock = true ∧ s.draws.accToHost = true) ∨ s.cfg.ctrlW = 0 := by
  simp [ctrlAccessible, dirBoth, and_or_right]

theorem hostAcc_ctrlLen_toBlock_iff :
    hostAcc arg s.cfg.ctrlLen .toBlock s = true ↔ s.draws.accToBlock = true ∨ s.cfg.ctrlW = 0 := by
  simp [hostAcc, ctrlLen_eq_zero_iff, or_comm]

theorem hostAcc_ctrlLen_toHost_iff :
    hostAcc arg s.cfg.ctrlLen .toHost s = true ↔ s.draws.accToHost = true ∨ s.cfg.ctrlW = 0 := by
  simp [hostAcc, ctrlLen_eq_zero_iff, or_comm]

theorem hostRead_of_ctrlReadable (hr : ctrlReadable s) :
    hostRead arg s.cfg.ctrlLen s = some (hmemLoad s.cfg s.hmem arg s.cfg.ctrlLen) :=
  if_pos (hr.symm.imp_left ctrlLen_eq_zero_iff.mpr)

theorem hostRead_of_not_ctrlReadable (hr : ¬ctrlReadable s) : hostRead arg s.cfg.ctrlLen s = none :=
  if_neg fun h => hr (h.imp_left ctrlLen_eq_zero_iff.mp).symm

theorem hostWriteOk_ctrlBytes_iff (v : Nat) : hostWriteOk (ctrlBytes s.cfg v) s = true ↔ ctrlWritable s := by
  simp [hostWriteOk, ctrlLen_eq_zero_iff, or_comm]

/-! ### The checks and the copy-out -/

section
variable {d : BitVec 2} {command : State → Result}

theorem ctrlChecked_of_off (hl : s.life = .off) : ctrlChecked d arg command s = .next (refuse s) := if_pos hl

theorem ctrlChecked_of_accessible (hl : s.life = .ready) (ha : ctrlAccessible d s) :
    ctrlChecked d arg command s = command s := by
  obtain ⟨hin, hout⟩ := ha
  unfold ctrlChecked
  simp only [← Bool.not_eq_true, hostAcc_ctrlLen_toBlock_iff, hostAcc_ctrlLen_toHost_iff]
  rw [if_neg (by simp [hl]), if_neg fun ⟨hd, hn⟩ => hn (hin hd), if_neg fun ⟨hd, hn⟩ => hn (hout hd)]

theorem ctrlChecked_of_not_accessible (hl : s.life = .ready) (ha : ¬ctrlAccessible d s) :
    ctrlChecked d arg command s = .next (respond .ctrl .badAddress 0 s) := by
  unfold ctrlChecked
  simp only [← Bool.not_eq_true, hostAcc_ctrlLen_toBlock_iff, hostAcc_ctrlLen_toHost_iff]
  rw [if_neg (by simp [hl])]
  split
  · rfl
  · rw [if_pos (by tauto)]
    rfl

end

section
variable {v : Nat} {commit : State → State}

theorem ctrlCopyOut_of_writable (hw : ctrlWritable s) : ctrlCopyOut arg v commit s =
    .next (respond .ctrl .ok 0 (commit (hostWritten arg (ctrlBytes s.cfg v) s))) :=
  if_pos ((hostWriteOk_ctrlBytes_iff v).mpr hw)

theorem ctrlCopyOut_of_not_writable (hw : ¬ctrlWritable s) : ctrlCopyOut arg v commit s =
    .next (respond .ctrl .badAddress 0 (hostFaulted arg (ctrlBytes s.cfg v) s)) :=
  if_neg fun h => hw ((hostWriteOk_ctrlBytes_iff v).mp h)

end

/-! ### The three commands and the invalid one, by what the host allows -/

theorem execCtrlInvalid_of_ready (hl : s.life = .ready) (c : CmdWord) (arg : Nat) :
    execCtrlInvalid c arg s = .next (respond .ctrl .invalidCommand 0 s) := if_neg (by simp [hl])

section
variable (hl : s.life = .ready)
include hl

theorem execCtrlSet_of_copied (ha : ctrlAccessible dirToBlock s) (hr : ctrlReadable s) :
    execCtrlSet arg s = .next (respond .ctrl .ok 0 { s with ctrlValue := ctrlLoaded arg s }) := by
  rw [execCtrlSet, ctrlChecked_of_accessible hl ha, hostRead_of_ctrlReadable hr]
  rfl

theorem execCtrlSet_of_failed (h : ¬(ctrlAccessible dirToBlock s ∧ ctrlReadable s)) :
    execCtrlSet arg s = .next (respond .ctrl .badAddress 0 s) := by
  rw [execCtrlSet]
  by_cases ha : ctrlAccessible dirToBlock s
  · rw [ctrlChecked_of_accessible hl ha, hostRead_of_not_ctrlReadable fun hr => h ⟨ha, hr⟩]
    rfl
  · exact ctrlChecked_of_not_accessible hl ha

theorem execCtrlGet_of_not_accessible (ha : ¬ctrlAccessible dirToHost s) :
    execCtrlGet arg s = .next (respond .ctrl .badAddress 0 s) := ctrlChecked_of_not_accessible hl ha

theorem execCtrlGet_of_copied (ha : ctrlAccessible dirToHost s) (hw : ctrlWritable s) :
    execCtrlGet arg s = .next (respond .ctrl .ok 0 (hostWritten arg (ctrlBytes s.cfg s.ctrlValue) s)) := by
  rw [execCtrlGet, ctrlChecked_of_accessible hl ha, ctrlCopyOut_of_writable hw]
  rfl

theorem execCtrlGet_of_faulted (ha : ctrlAccessible dirToHost s) (hw : ¬ctrlWritable s) :
    execCtrlGet arg s = .next (respond .ctrl .badAddress 0 (hostFaulted arg (ctrlBytes s.cfg s.ctrlValue) s)) := by
  rw [execCtrlGet, ctrlChecked_of_accessible hl ha, ctrlCopyOut_of_not_writable hw]

theorem execCtrlExchange_of_failed (h : ¬(ctrlAccessible dirBoth s ∧ ctrlReadable s)) :
    execCtrlExchange arg s = .next (respond .ctrl .badAddress 0 s) := by
  rw [execCtrlExchange]
  by_cases ha : ctrlAccessible dirBoth s
  · rw [ctrlChecked_of_accessible hl ha, hostRead_of_not_ctrlReadable fun hr => h ⟨ha, hr⟩]
    rfl
  · exact ctrlChecked_of_not_accessible hl ha

end

/-- The value an EXCHANGE commits and copies out: twice its input, modulo `2^CTRL_W` (44_control R166). -/
def ctrlDoubled (arg : Nat) (s : State) : Nat := 2 * ctrlLoaded arg s % 2 ^ s.cfg.ctrlW

/-- What the copy-out of an EXCHANGE commits when it succeeded (44_control R166). -/
def ctrlExchanged (arg : Nat) (s : State) : State :=
  { hostWritten arg (ctrlBytes s.cfg (ctrlDoubled arg s)) s with ctrlValue := ctrlDoubled arg s }

section
variable (hl : s.life = .ready) (ha : ctrlAccessible dirBoth s) (hr : ctrlReadable s)
include hl ha hr

theorem execCtrlExchange_of_copied (hw : ctrlWritable s) :
    execCtrlExchange arg s = .next (respond .ctrl .ok 0 (ctrlExchanged arg s)) := by
  rw [execCtrlExchange, ctrlChecked_of_accessible hl ha, hostRead_of_ctrlReadable hr]
  exact ctrlCopyOut_of_writable hw

theorem execCtrlExchange_of_faulted (hw : ¬ctrlWritable s) : execCtrlExchange arg s =
    .next (respond .ctrl .badAddress 0 (hostFaulted arg (ctrlBytes s.cfg (ctrlDoubled arg s)) s)) := by
  rw [execCtrlExchange, ctrlChecked_of_accessible hl ha, hostRead_of_ctrlReadable hr]
  exact ctrlCopyOut_of_not_writable hw

end

/-! ### What a command that answered OK went through -/

section
variable {t : State} (hok : t.responses = s.responses ++ [⟨.ctrl, .ok, 0⟩])
include hok

theorem execCtrlSet_ok (h : execCtrlSet arg s = .next t) :
    t = respond .ctrl .ok 0 { s with ctrlValue := ctrlLoaded arg s } := by
  obtain ⟨-, rfl⟩ | ⟨-, rfl⟩ | ⟨-, bytes, hb, rfl⟩ := execCtrlSet_cases h
  · simp at hok
  · simp at hok
  · rw [ctrlLoaded, ← (hostRead_some hb).1]

theorem execCtrlGet_ok (h : execCtrlGet arg s = .next t) :
    t = respond .ctrl .ok 0 (hostWritten arg (ctrlBytes s.cfg s.ctrlValue) s) := by
  obtain ⟨-, rfl⟩ | ⟨-, rfl⟩ | ⟨-, rfl⟩ | ⟨-, rfl⟩ := execCtrlGet_cases h
  · simp at hok
  · simp at hok
  · rfl
  · simp at hok

/-- An EXCHANGE that answered OK passed its checks and both its copies. -/
theorem execCtrlExchange_ok (h : execCtrlExchange arg s = .next t) :
    s.life = .ready ∧ (ctrlAccessible dirBoth s ∧ ctrlReadable s) ∧ ctrlWritable s := by
  cases hl : s.life with
  | off =>
    obtain rfl := Host.Outcome.next.inj ((ctrlChecked_of_off hl).symm.trans h)
    simp at hok
  | ready =>
    refine ⟨rfl, ?_⟩
    by_cases hin : ctrlAccessible dirBoth s ∧ ctrlReadable s
    · refine ⟨hin, by_contra fun hw => ?_⟩
      obtain rfl := Host.Outcome.next.inj ((execCtrlExchange_of_faulted hl hin.1 hin.2 hw).symm.trans h)
      simp at hok
    · obtain rfl := Host.Outcome.next.inj ((execCtrlExchange_of_failed hl hin).symm.trans h)
      simp at hok

end

end

/-! ### The obligations on one command -/

/-- Settles O40: while READY the command word is answered and nothing else is done. -/
theorem ctrlInvalidChangesNothing : Obligations.CtrlInvalidChangesNothing :=
  fun _ c arg hl => execCtrlInvalid_of_ready hl c arg

/-- Settles O41, by whether the check and the copy-in succeed. -/
theorem ctrlSetStoresInput : Obligations.CtrlSetStoresInput := by
  refine fun s arg hl => ⟨fun h => ⟨_, ctrlAt_ctrlLoaded arg s, ?_⟩, fun hw hf => ?_⟩
  · exact execCtrlSet_of_copied hl (ctrlAccessible_dirToBlock_iff.mpr (h.imp_left And.left)) (h.imp_left And.right)
  · refine execCtrlSet_of_failed hl ?_
    rw [ctrlAccessible_dirToBlock_iff]
    rcases hf with hf | hf <;> simp [hf, hw]

/-- Settles O42, by whether the check and then the copy-out succeed. -/
theorem ctrlGetReturnsValue : Obligations.CtrlGetReturnsValue := by
  refine fun s arg hl => ⟨fun h => ?copied, fun hw hf => ?inaccessible, fun hw ha hf => ?faulted⟩
  case copied =>
    rw [← ctrlBytes_eq_inOrder]
    exact execCtrlGet_of_copied hl (ctrlAccessible_dirToHost_iff.mpr (h.imp_left And.left)) (h.imp_left And.right)
  case inaccessible =>
    exact execCtrlGet_of_not_accessible hl (by simp [ctrlAccessible_dirToHost_iff, hf, hw])
  case faulted =>
    exact ⟨_, _, by simp, execCtrlGet_of_faulted hl (ctrlAccessible_dirToHost_iff.mpr (.inl ha)) (by simp [hf, hw])⟩

/-- Settles O43, by whether the checks and the copy-in, and then the copy-out succeed. -/
theorem ctrlExchangeDoublesInput : Obligations.CtrlExchangeDoublesInput := by
  refine fun s arg hl => ⟨fun h => ⟨_, ctrlAt_ctrlLoaded arg s, ?copied⟩, fun hw hf => ?failed,
    fun hw hb hh hr hf => ?faulted⟩
  case copied =>
    have ha : ctrlAccessible dirBoth s := ctrlAccessible_dirBoth_iff.mpr (by tauto)
    rw [← ctrlBytes_eq_inOrder]
    exact execCtrlExchange_of_copied hl ha (by tauto) (by tauto)
  case failed =>
    refine execCtrlExchange_of_failed hl ?_
    rw [ctrlAccessible_dirBoth_iff]
    rcases hf with hf | hf | hf <;> simp [hf, hw]
  case faulted =>
    have ha : ctrlAccessible dirBoth s := ctrlAccessible_dirBoth_iff.mpr (.inl ⟨hb, hh⟩)
    exact ⟨_, _, by simp, execCtrlExchange_of_faulted hl ha (.inl hr) (by simp [hf, hw])⟩

/-- Settles O44: the SET's value is the one its copy-in assembled, and the GET's copy-out takes it apart again. -/
theorem ctrlSetThenGet : Obligations.CtrlSetThenGet := by
  intro s t u v a b hset hsok hwf hcfg hval hget hgok
  obtain rfl := execCtrlSet_ok hsok hset
  obtain rfl := execCtrlGet_ok hgok hget
  have hcfg : u.cfg = s.cfg := hcfg
  have hval : u.ctrlValue = ctrlLoaded a s := hval
  simp only [respond_hmem, respond_cfg, hostWritten_hmem, hostWritten_cfg, hcfg, hval]
  refine ⟨⟨_, ctrlAt_ctrlLoaded a s, by rw [ctrlBytes_eq_inOrder]⟩, fun hlen hbytes => ?_⟩
  have hwhole : s.cfg.ctrlW = 8 * s.cfg.ctrlLen := by
    unfold Params.ctrlLen
    omega
  rw [ctrlLoaded, ctrlBytes_ctrlOfBytes hwhole (hmemLoad_length ..)]
  have hstored := hmemLoad_store (hcfg ▸ hwf) b (bytes := hmemLoad s.cfg s.hmem a s.cfg.ctrlLen)
    (by rwa [hmemLoad_length])
  rwa [hmemLoad_length] at hstored

/-- Doubling modulo `2^w` is doubling in two's complement, reduced to `w` bits (44_control R167). -/
theorem toInt_ofNat_double_mod (w v : Nat) :
    (BitVec.ofNat w (2 * v % 2 ^ w)).toInt = (2 * (BitVec.ofNat w v).toInt).bmod (2 ^ w) := by
  rw [BitVec.toInt_ofNat', BitVec.toInt_ofNat', Int.mul_bmod_bmod]
  push_cast
  exact Int.emod_bmod ..

/-- Settles O45: the checks and the copies do not see the old value, and doubling is doubling in two's complement. -/
theorem exchangeIgnoresOldValue : Obligations.ExchangeIgnoresOldValue := by
  intro s t arg old h hok
  obtain ⟨hl, ⟨ha, hr⟩, hw⟩ := execCtrlExchange_ok hok h
  obtain rfl := Host.Outcome.next.inj ((execCtrlExchange_of_copied hl ha hr hw).symm.trans h)
  exact ⟨execCtrlExchange_of_copied (s := { s with ctrlValue := old }) hl ha hr hw,
    _, ctrlAt_ctrlLoaded arg s, toInt_ofNat_double_mod ..⟩

/-- Where one response was appended, it is the one given. -/
theorem status_of_respond {k : ReqKind} {st : Status} {v : BitVec 64} {s t : State} {r : Response}
    (hs : t.responses = s.responses) (h : (respond k st v t).responses = s.responses ++ [r]) : r.status = st := by
  rw [respond_responses, hs] at h
  obtain rfl := List.singleton_inj.mp (List.append_cancel_left h)
  rfl

/-- Settles O46, by the operation: only the ends of SET and EXCHANGE that answer OK write the ControlValue. -/
theorem ctrlErrorKeepsValue : Obligations.CtrlErrorKeepsValue := by
  intro i s t r hi h hresp herr
  cases i with
  | ctrlSet arg =>
    obtain ⟨-, rfl⟩ | ⟨-, rfl⟩ | ⟨-, bytes, -, rfl⟩ := execCtrlSet_cases h
    · rfl
    · rfl
    · exact absurd (status_of_respond rfl hresp) herr
  | ctrlGet arg => exact (execCtrlGet_sameElements h).ctrlValue
  | ctrlExchange arg =>
    obtain ⟨-, rfl⟩ | ⟨-, rfl⟩ | ⟨-, bytes, -, rfl | rfl⟩ := execCtrlExchange_cases h
    · rfl
    · rfl
    · exact absurd (status_of_respond rfl hresp) herr
    · rfl
  | ctrlInvalid c arg => exact (execCtrlInvalid_sameElements c arg h).ctrlValue
  | edge | tick | read | cancel | write | init | teardown | reserved => cases hi

end Sys2Proof.Machine
end

section
/-! SUPPORT. The Control Channel and the event path do not touch each other: each step commutes with replacing what the other
one owns (44_control R170). -/

namespace Sys2Proof.Machine

variable {s : State}

/-- A step that answers the changed state from the changed state commutes with the change. -/
theorem eq_mapNext_of_next {f : State → State} {r r' : Result} {t : State} (h : r = .next t) (h' : r' = .next (f t)) :
    r' = mapNext f r := by
  rw [h, h']
  rfl

/-! ### The commands commute with replacing the event path -/

section
variable {e : State} (hl : s.life = .ready)
include hl

theorem execCtrlSet_withEventPath (arg : Nat) :
    execCtrlSet arg (withEventPath s e) = mapNext (withEventPath · e) (execCtrlSet arg s) := by
  by_cases hin : ctrlAccessible dirToBlock s ∧ ctrlReadable s
  · obtain ⟨ha, hr⟩ := hin
    exact eq_mapNext_of_next (execCtrlSet_of_copied hl ha hr) (execCtrlSet_of_copied (s := withEventPath s e) hl ha hr)
  · exact eq_mapNext_of_next (execCtrlSet_of_failed hl hin) (execCtrlSet_of_failed (s := withEventPath s e) hl hin)

theorem execCtrlGet_withEventPath (arg : Nat) :
    execCtrlGet arg (withEventPath s e) = mapNext (withEventPath · e) (execCtrlGet arg s) := by
  by_cases ha : ctrlAccessible dirToHost s
  · by_cases hw : ctrlWritable s
    · exact eq_mapNext_of_next (execCtrlGet_of_copied hl ha hw)
        (execCtrlGet_of_copied (s := withEventPath s e) hl ha hw)
    · exact eq_mapNext_of_next (execCtrlGet_of_faulted hl ha hw)
        (execCtrlGet_of_faulted (s := withEventPath s e) hl ha hw)
  · exact eq_mapNext_of_next (execCtrlGet_of_not_accessible hl ha)
      (execCtrlGet_of_not_accessible (s := withEventPath s e) hl ha)

theorem execCtrlExchange_withEventPath (arg : Nat) :
    execCtrlExchange arg (withEventPath s e) = mapNext (withEventPath · e) (execCtrlExchange arg s) := by
  by_cases hin : ctrlAccessible dirBoth s ∧ ctrlReadable s
  · obtain ⟨ha, hr⟩ := hin
    by_cases hw : ctrlWritable s
    · exact eq_mapNext_of_next (execCtrlExchange_of_copied hl ha hr hw)
        (execCtrlExchange_of_copied (s := withEventPath s e) hl ha hr hw)
    · exact eq_mapNext_of_next (execCtrlExchange_of_faulted hl ha hr hw)
        (execCtrlExchange_of_faulted (s := withEventPath s e) hl ha hr hw)
  · exact eq_mapNext_of_next (execCtrlExchange_of_failed hl hin)
      (execCtrlExchange_of_failed (s := withEventPath s e) hl hin)

theorem execCtrlInvalid_withEventPath (c : CmdWord) (arg : Nat) :
    execCtrlInvalid c arg (withEventPath s e) = mapNext (withEventPath · e) (execCtrlInvalid c arg s) :=
  eq_mapNext_of_next (execCtrlInvalid_of_ready hl c arg) (execCtrlInvalid_of_ready (s := withEventPath s e) hl c arg)

end

theorem needsReady_of_isCtrl {i : Instr} (hi : isCtrl i = true) : needsReady i = true := by
  cases i with
  | ctrlSet | ctrlGet | ctrlExchange | ctrlInvalid => rfl
  | edge | tick | read | cancel | write | init | teardown | reserved => cases hi

theorem exec_withEventPath {i : Instr} (hi : isCtrl i = true) (s e : State) :
    exec i (withEventPath s e) = mapNext (withEventPath · e) (exec i s) := by
  cases hl : s.life with
  | off =>
    have hn := needsReady_of_isCtrl hi
    exact eq_mapNext_of_next (exec_needsReady_of_off hn hl) (exec_needsReady_of_off (s := withEventPath s e) hn hl)
  | ready =>
    cases i with
    | ctrlSet arg => exact execCtrlSet_withEventPath hl arg
    | ctrlGet arg => exact execCtrlGet_withEventPath hl arg
    | ctrlExchange arg => exact execCtrlExchange_withEventPath hl arg
    | ctrlInvalid c arg => exact execCtrlInvalid_withEventPath hl c arg
    | edge | tick | read | cancel | write | init | teardown | reserved => cases hi

/-! ### The other steps commute with replacing the ControlValue -/

/-- `s` with the ControlValue `c`. -/
def withCtrlValue (c : Nat) (s : State) : State := { s with ctrlValue := c }

section
variable (c : Nat)

theorem endRead_withCtrlValue (s : State) : endRead (withCtrlValue c s) = withCtrlValue c (endRead s) := by
  cases hi : s.rdState with
  | idle => rw [endRead_of_idle hi, endRead_of_idle (s := withCtrlValue c s) hi]
  | wait =>
    rw [endRead_of_wait hi, endRead_of_wait (s := withCtrlValue c s) hi]
    rfl

theorem deliverBytes_withCtrlValue (bytes : List Byte) (dst : Nat) (s : State) :
    deliverBytes bytes dst (withCtrlValue c s) = withCtrlValue c (deliverBytes bytes dst s) := by
  cases hok : hostWriteOk bytes s with
  | true =>
    rw [deliverBytes_ok hok, deliverBytes_ok (s := withCtrlValue c s) hok]
    exact congrArg (respond .read .ok _) (endRead_withCtrlValue c (drain (hostWritten dst bytes s)))
  | false =>
    rw [deliverBytes_fault hok, deliverBytes_fault (s := withCtrlValue c s) hok]
    exact congrArg (respond .read .badAddress 0) (endRead_withCtrlValue c (hostFaulted dst bytes s))

theorem deliver_of_bufRead_none {n dst : Nat} (hb : bufRead (prev s.cfg s.head) s.cfg.R s = none) :
    deliver n dst s = .fault .bufBounds := by
  rw [deliver, hb]

theorem deliver_withCtrlValue (n dst : Nat) (s : State) :
    deliver n dst (withCtrlValue c s) = mapNext (withCtrlValue c) (deliver n dst s) := by
  cases hb : bufRead (prev s.cfg s.head) s.cfg.R s with
  | none =>
    rw [deliver_of_bufRead_none hb, deliver_of_bufRead_none (s := withCtrlValue c s) hb]
    rfl
  | some bytes =>
    rw [deliver_of_bufRead hb, deliver_of_bufRead (s := withCtrlValue c s) hb, deliverBytes_withCtrlValue]
    rfl

theorem execEdge_withCtrlValue (s : State) :
    execEdge (withCtrlValue c s) = mapNext (withCtrlValue c) (execEdge s) := by
  cases hl : s.life with
  | off => exact eq_mapNext_of_next (execEdge_of_off hl) (execEdge_of_off (s := withCtrlValue c s) hl)
  | ready => exact eq_mapNext_of_next (execEdge_of_ready hl) (execEdge_of_ready (s := withCtrlValue c s) hl)

section
variable (hl : s.life = .ready)
include hl

theorem execRead_withCtrlValue (n dst : Nat) :
    execRead n dst (withCtrlValue c s) = mapNext (withCtrlValue c) (execRead n dst s) := by
  cases hi : s.rdState with
  | wait =>
    exact eq_mapNext_of_next (execRead_of_refused (.inr hi)) (execRead_of_refused (s := withCtrlValue c s) (.inr hi))
  | idle =>
    by_cases he : s.head = s.tail
    · exact eq_mapNext_of_next (execRead_of_empty hl hi he) (execRead_of_empty (s := withCtrlValue c s) hl hi he)
    · rw [execRead_of_data hl hi he, execRead_of_data (s := withCtrlValue c s) hl hi he]
      exact deliver_withCtrlValue c n dst s

theorem execCancel_withCtrlValue :
    execCancel (withCtrlValue c s) = mapNext (withCtrlValue c) (execCancel s) := by
  cases hi : s.rdState with
  | wait =>
    refine eq_mapNext_of_next (execCancel_of_wait hl hi) ((execCancel_of_wait (s := withCtrlValue c s) hl hi).trans ?_)
    rw [endRead_withCtrlValue]
    rfl
  | idle =>
    exact eq_mapNext_of_next (execCancel_of_idle hl hi) (execCancel_of_idle (s := withCtrlValue c s) hl hi)

theorem execWrite_of_copied {n src : Nat} {bytes : List Byte}
    (hb : hostRead src (min n s.cfg.msgMax) s = some bytes) : execWrite n src s = .next (written n bytes s) := by
  rw [execWrite, if_neg (by simp [hl]), hb]
  rfl

theorem execWrite_of_faulted {n src : Nat} (hb : hostRead src (min n s.cfg.msgMax) s = none) :
    execWrite n src s = .next (respond .write .badAddress 0 s) := by
  rw [execWrite, if_neg (by simp [hl]), hb]

theorem execWrite_withCtrlValue (n src : Nat) :
    execWrite n src (withCtrlValue c s) = mapNext (withCtrlValue c) (execWrite n src s) := by
  cases hb : hostRead src (min n s.cfg.msgMax) s with
  | none =>
    exact eq_mapNext_of_next (execWrite_of_faulted hl hb) (execWrite_of_faulted (s := withCtrlValue c s) hl hb)
  | some bytes =>
    exact eq_mapNext_of_next (execWrite_of_copied hl hb) (execWrite_of_copied (s := withCtrlValue c s) hl hb)

end

theorem exec_withCtrlValue {i : Instr} (hc : isCtrl i = false) (hi : i ≠ .init) (ht : i ≠ .teardown) (s : State) :
    exec i (withCtrlValue c s) = mapNext (withCtrlValue c) (exec i s) := by
  by_cases hoff : needsReady i = true ∧ s.life = .off
  · obtain ⟨hn, hl⟩ := hoff
    exact eq_mapNext_of_next (exec_needsReady_of_off hn hl) (exec_needsReady_of_off (s := withCtrlValue c s) hn hl)
  · have hready : needsReady i = true → s.life = .ready := by
      intro hn
      cases hl : s.life with
      | ready => rfl
      | off => exact absurd ⟨hn, hl⟩ hoff
    cases i with
    | edge => exact execEdge_withCtrlValue c s
    | tick k => rfl
    | read n dst => exact execRead_withCtrlValue c (hready rfl) n dst
    | cancel => exact execCancel_withCtrlValue c (hready rfl)
    | write n src => exact execWrite_withCtrlValue c (hready rfl) n src
    | reserved op => rfl
    | init => exact absurd rfl hi
    | teardown => exact absurd rfl ht
    | ctrlSet | ctrlGet | ctrlExchange | ctrlInvalid => cases hc

theorem captureRecord_withCtrlValue (now : Timestamp) (s : State) :
    captureRecord now (withCtrlValue c s) = mapNext (withCtrlValue c) (captureRecord now s) := by
  by_cases hb : bufAccessOk s.cfg s.head s.cfg.R
  · exact eq_mapNext_of_next (captureRecord_ok hb) (captureRecord_ok (s := withCtrlValue c s) hb)
  · rw [captureRecord_fault hb, captureRecord_fault (s := withCtrlValue c s) hb]
    rfl

theorem captureStep_withCtrlValue (s : State) :
    captureStep (withCtrlValue c s) = mapNext (withCtrlValue c) (captureStep s) := by
  by_cases he : captureEnabled s
  · rw [captureStep_enabled he, captureStep_enabled (s := withCtrlValue c s) he]
    change (if admits s.ticks s = true then _ else _) = _
    split
    · exact captureRecord_withCtrlValue c s.ticks (acceptEvent s.ticks (clearEdge s))
    · rfl
  · rw [captureStep_of_not_enabled he, captureStep_of_not_enabled (s := withCtrlValue c s) he]
    rfl

theorem completeStep_withCtrlValue (s : State) :
    completeStep (withCtrlValue c s) = mapNext (withCtrlValue c) (completeStep s) := by
  by_cases he : completeEnabled s
  · rw [completeStep, completeStep, if_pos he, if_pos (show completeEnabled (withCtrlValue c s) from he)]
    exact deliver_withCtrlValue c s.rdLen s.rdAddr s
  · rw [completeStep_of_not_enabled he, completeStep_of_not_enabled (s := withCtrlValue c s) he]
    rfl

end

/-- Settles O47: each step commutes with the replacement, in each of its cases. -/
theorem ctrlIndependentOfEventPath : Obligations.CtrlIndependentOfEventPath :=
  ⟨fun _ s e hi => exec_withEventPath hi s e, fun _ s c hc hi ht => exec_withCtrlValue c hc hi ht s,
    fun s c => ⟨captureStep_withCtrlValue c s, completeStep_withCtrlValue c s⟩⟩

end Sys2Proof.Machine
end

section
/-! PROOFS. WRITE replaces the display string (45_message R180, 20_memory R57). -/

namespace Sys2Proof.Machine

theorem countValue_toNat {n : Nat} (hn : n < 2 ^ 64) : (countValue n).toNat = n := by
  rw [countValue, if_pos hn, BitVec.toNat_ofNat, Nat.mod_eq_of_lt hn]

section
variable {s : State} {addr n : Nat}

theorem hostRead_of_copied (h : s.draws.readOk = true ∨ n = 0) :
    hostRead addr n s = some (hmemLoad s.cfg s.hmem addr n) := if_pos h.symm

theorem hostRead_of_faulted (hd : s.draws.readOk = false) (hn : n ≠ 0) : hostRead addr n s = none :=
  if_neg (by simp [hd, hn])

end

theorem displayString_hmemLoad (p : Params) (m : List Host.Cell) (src k : Nat) :
    displayString p (hmemLoad p m src k) = hmemLoad p m src k ++ List.replicate (p.msgMax - k) 0#8 := by
  rw [displayString, hmemLoad_length]

theorem written_hmemLoad (n src k : Nat) (s : State) :
    written n (hmemLoad s.cfg s.hmem src k) s =
      respond .write .ok (countValue n)
        { s with
          msg := hmemLoad s.cfg s.hmem src k ++ List.replicate (s.cfg.msgMax - k) 0#8
          msgLen := k } := by
  rw [written, displayString_hmemLoad, hmemLoad_length]

/-- Settles O48: the copy-in decides between the two answers while READY, and the free value is the model's `countValue`. -/
theorem writeReplacesMessage : Obligations.WriteReplacesMessage := by
  refine fun s n src => ⟨exec_needsReady_of_off rfl, fun hl hr => ?_, fun hl hd hk => ?_⟩
  · refine ⟨countValue n, countValue_toNat, (execWrite_of_copied hl (hostRead_of_copied hr)).trans ?_⟩
    rw [written_hmemLoad]
    rfl
  · exact execWrite_of_faulted hl (hostRead_of_faulted hd hk)

end Sys2Proof.Machine
end

section
/-! PROOFS. INIT and TEARDOWN (46_lifecycle R190 to R195). -/

namespace Sys2Proof.Machine

/-! ### The answers that the lifecycle's statements still need -/

/-- INIT may be presented only while OFF (46_lifecycle R190). -/
theorem execInit_of_ready {s : State} (hl : s.life = .ready) : execInit s = .next (refuse s) := if_pos hl

/-- While READY, TEARDOWN succeeds where no READ waits (46_lifecycle R195). -/
theorem execTeardown_of_idle {s : State} (hl : s.life = .ready) (hi : s.rdState = .idle) :
    execTeardown s =
      .next (respond .teardown .ok 0 (dropReadOperands (forget { clearEdge s with life := .off }))) :=
  if_neg (by simp [hl, hi])

/-- TEARDOWN may be presented neither while OFF nor while a READ waits (46_lifecycle R195). -/
theorem execTeardown_of_refused {s : State} (h : s.life = .off ∨ s.rdState = .wait) :
    execTeardown s = .next (refuse s) := if_pos h

/-- One answer that is false is enough for the platform not to grant the INIT (46_lifecycle R193). -/
theorem not_platformGrants_of_false {d : Draws}
    (h : d.okB = false ∨ d.okP = false ∨ d.okI = false ∨ d.okD = false) : ¬platformGrants d := by
  rintro ⟨hb, hp, hi, hd⟩
  simp [hb, hp, hi, hd] at h

/-! ### The obligations -/

/-- Settles O49: all four answers are favourable, and the unspecified elements are those `initialise` draws from the
free-value counter. -/
theorem initLeavesInitialState : Obligations.InitLeavesInitialState :=
  fun s hl hb hp hi hd =>
    ⟨Config.unsetDblLast s.freeCtr, (initialise s).rdLen, (initialise s).rdAddr, s.freeCtr, (initialise s).freeCtr,
      execInit_of_granted hl ⟨hb, hp, hi, hd⟩⟩

/-- Settles O50: any false answer ends a presented INIT, and READY refuses it. -/
theorem initFailureKeepsNothing : Obligations.InitFailureKeepsNothing :=
  fun _ => ⟨fun hl hf => execInit_of_denied hl (not_platformGrants_of_false hf), execInit_of_ready⟩

/-- Settles O51: the reader's operands are the only elements a presented TEARDOWN leaves unspecified. -/
theorem teardownForgetsEverything : Obligations.TeardownForgetsEverything := by
  refine fun s => ⟨fun hl hi => ?_, execTeardown_of_refused⟩
  exact ⟨(dropReadOperands s).rdLen, (dropReadOperands s).rdAddr, (dropReadOperands s).freeCtr,
    execTeardown_of_idle hl hi⟩

end Sys2Proof.Machine
end

section
/-! PROOFS. What the responses of a step carry (60_exceptions R200, R201), and the refusals while OFF (70_reset R232,
R233). -/

namespace Sys2Proof.Machine

/-! ### Responses are only added, and an error carries 0 (60_exceptions R200, R201) -/

/-- The step from `s` to `t` only adds responses, and each error response among them carries 0. -/
def AddsErrorsWithZero (s t : State) : Prop :=
  ∃ rs : List Response, t.responses = s.responses ++ rs ∧ ∀ r ∈ rs, r.status ≠ .ok → r.value = 0

theorem AddsErrorsWithZero.of_responses_eq {s t : State} (h : t.responses = s.responses) : AddsErrorsWithZero s t :=
  ⟨[], h.trans (List.append_nil _).symm, List.forall_mem_nil _⟩

theorem AddsErrorsWithZero.of_response {s t : State} {r : Response} (h : t.responses = s.responses ++ [r])
    (hr : r.status ≠ .ok → r.value = 0) : AddsErrorsWithZero s t :=
  ⟨[r], h, List.forall_mem_singleton.mpr hr⟩

/-- A delivery answers OK with the count, or BAD_ADDRESS with 0 (43_reader R145). -/
theorem deliver_addsErrorsWithZero {n dst : Nat} {s t : State} (h : deliver n dst s = .next t) :
    AddsErrorsWithZero s t := by
  obtain ⟨bytes, -, rfl⟩ := deliver_cases h
  refine .of_response (deliverBytes_responses ..) ?_
  split
  · exact fun herr => absurd rfl herr
  · exact fun _ => rfl

theorem execRead_addsErrorsWithZero {n dst : Nat} {s t : State} (h : execRead n dst s = .next t) :
    AddsErrorsWithZero s t := by
  obtain ⟨-, rfl⟩ | ⟨-, -, -, rfl⟩ | ⟨-, -, -, hd⟩ := execRead_cases h
  · exact .of_responses_eq rfl
  · exact .of_responses_eq rfl
  · exact deliver_addsErrorsWithZero hd

/-- A WRITE answers OK with its length, or BAD_ADDRESS with 0 (45_message R180). -/
theorem execWrite_addsErrorsWithZero {n src : Nat} {s t : State} (h : execWrite n src s = .next t) :
    AddsErrorsWithZero s t := by
  obtain ⟨-, rfl⟩ | ⟨-, -, rfl⟩ | ⟨-, bytes, -, rfl⟩ := execWrite_cases h
  · exact .of_responses_eq rfl
  · exact .of_response rfl fun _ => rfl
  · exact .of_response rfl fun herr => absurd rfl herr

/-- Only the answers of READ and WRITE carry a value other than 0; those of the other operations carry 0 whatever their
status. -/
theorem exec_addsErrorsWithZero {i : Instr} {s t : State} (h : exec i s = .next t) : AddsErrorsWithZero s t := by
  obtain rfl | ⟨-, hanswer⟩ := exec_answers h
  · exact .of_responses_eq rfl
  · cases i with
    | edge | tick => exact .of_responses_eq hanswer
    | read n dst => exact execRead_addsErrorsWithZero h
    | cancel =>
      obtain ⟨-, hboth⟩ | ⟨-, hown⟩ := hanswer
      · exact ⟨_, hboth, by simp⟩
      · exact .of_response hown fun _ => rfl
    | write n src => exact execWrite_addsErrorsWithZero h
    | ctrlSet | ctrlGet | ctrlExchange | ctrlInvalid | init =>
      obtain ⟨st, hown⟩ := hanswer
      exact .of_response hown fun _ => rfl
    | teardown => exact .of_response hanswer fun _ => rfl
    | reserved op => exact hanswer.elim

theorem autoStep_addsErrorsWithZero {a : AutoStep} {s t : State} (h : autoStep a s = .next t) :
    AddsErrorsWithZero s t := by
  cases a with
  | capture => exact .of_responses_eq (captureStep_responses h)
  | complete => exact deliver_addsErrorsWithZero (completeStep_cases h).2

theorem runMove_addsErrorsWithZero {w : MoveKind} {s t : State} (h : runMove w s = .next t) :
    AddsErrorsWithZero s t := by
  cases w with
  | request r => exact exec_addsErrorsWithZero h
  | auto a => exact autoStep_addsErrorsWithZero h
  | hostStore addr b =>
    cases h
    exact .of_responses_eq rfl

/-- Taking the move off the list leaves the responses as they are. -/
theorem AddsErrorsWithZero.of_takeMove {m : Move} {rest : List Move} {s t : State}
    (h : AddsErrorsWithZero (takeMove m rest s) t) : AddsErrorsWithZero s t := h

/-- Settles O56, by the kind of the next move and, for a request, its operation. -/
theorem errorResponsesCarryZero : Obligations.ErrorResponsesCarryZero := by
  intro s t h
  obtain ⟨-, ⟨-, rfl⟩ | ⟨m, rest, -, hr⟩⟩ := step_cases h
  · exact AddsErrorsWithZero.of_responses_eq rfl
  · exact (runMove_addsErrorsWithZero hr).of_takeMove

/-! ### The refusals while OFF (70_reset R232, R233) -/

/-- Settles O53: the refusal sets the mark and nothing else. -/
theorem hostRequestsRefusedWhileOff : Obligations.HostRequestsRefusedWhileOff := fun _ _ => exec_needsReady_of_off

end Sys2Proof.Machine
end
